-- ==== Sys2Proof/Word.lean ====
section
/-! DEFINITION. The widths of this hardware's words, as bit vectors (spec/00_scope.md R9, R10: bit 0 is the
least significant, every value is unsigned). -/

namespace Sys2Proof

/-- Four bits: a register number X or Y, or the row count N (30_encoding.md R53). -/
abbrev Nibble := BitVec 4

/-- Eight bits: a data register, a timer, a memory byte, an immediate NN. -/
abbrev Byte := BitVec 8

/-- Twelve bits: an address immediate NNN. -/
abbrev Addr12 := BitVec 12

/-- Sixteen bits: PC, I, a stack entry, an instruction word. -/
abbrev Word := BitVec 16

/-- The display buffer as 32 rows of 64 one-bit pixels: FB[x + 64*y] is bit x of row y (10_state.md R26). -/
abbrev FrameBuffer := Vector (BitVec 64) 32

/-- The index of VF, the register that is also the flag output (10_state.md R15). -/
abbrev vf : Nibble := 0xF#4

end Sys2Proof
end

