-- ==== Sys2Proof/Syntax.lean ====
section
/-! DEFINITION. The 34 instructions of spec/opcode_table.json, one constructor a row, in the order of
30_encoding.md R56. The operand types are the fields' exact widths (R53), so every term is an instruction. -/

namespace Sys2Proof

/-- An instruction of the core (30_encoding.md R56); `x`, `y`, `n`, `nn`, `nnn` are the fields of R53. -/
inductive Instr where
  /-- 00E0 CLS: clear screen (R98). -/
  | cls
  /-- 00EE RET: return from subroutine (R67). -/
  | ret
  /-- 1NNN JP addr (R68). -/
  | jp (nnn : Addr12)
  /-- 2NNN CALL addr (R69). -/
  | call (nnn : Addr12)
  /-- 3XNN SE Vx, byte (R70). -/
  | seByte (x : Nibble) (nn : Byte)
  /-- 4XNN SNE Vx, byte (R71). -/
  | sneByte (x : Nibble) (nn : Byte)
  /-- 5XY0 SE Vx, Vy (R72). -/
  | seReg (x y : Nibble)
  /-- 9XY0 SNE Vx, Vy (R73). -/
  | sneReg (x y : Nibble)
  /-- 6XNN LD Vx, byte (R77). -/
  | ldByte (x : Nibble) (nn : Byte)
  /-- 7XNN ADD Vx, byte (R78). -/
  | addByte (x : Nibble) (nn : Byte)
  /-- 8XY0 LD Vx, Vy (R79). -/
  | ldReg (x y : Nibble)
  /-- 8XY1 OR Vx, Vy (R80). -/
  | orReg (x y : Nibble)
  /-- 8XY2 AND Vx, Vy (R81). -/
  | andReg (x y : Nibble)
  /-- 8XY3 XOR Vx, Vy (R82). -/
  | xorReg (x y : Nibble)
  /-- 8XY4 ADD Vx, Vy (R83). -/
  | addReg (x y : Nibble)
  /-- 8XY5 SUB Vx, Vy (R84). -/
  | subReg (x y : Nibble)
  /-- 8XY6 SHR Vx, Vy; the assembler's optional Vy is the field y, 0 when omitted (R85, R59). -/
  | shr (x y : Nibble)
  /-- 8XY7 SUBN Vx, Vy (R86). -/
  | subn (x y : Nibble)
  /-- 8XYE SHL Vx, Vy; as `shr` for Vy (R87, R59). -/
  | shl (x y : Nibble)
  /-- ANNN LD I, addr (R89). -/
  | ldI (nnn : Addr12)
  /-- BNNN JP V0, addr (R74). -/
  | jpV0 (nnn : Addr12)
  /-- CXNN RND Vx, byte (R88). -/
  | rnd (x : Nibble) (nn : Byte)
  /-- DXYN DRW Vx, Vy, nibble (R99). -/
  | drw (x y n : Nibble)
  /-- EX9E SKP Vx (R101). -/
  | skp (x : Nibble)
  /-- EXA1 SKNP Vx (R102). -/
  | sknp (x : Nibble)
  /-- FX07 LD Vx, DT (R104). -/
  | ldVxDt (x : Nibble)
  /-- FX0A LD Vx, K (R103). -/
  | ldVxK (x : Nibble)
  /-- FX15 LD DT, Vx (R105). -/
  | ldDtVx (x : Nibble)
  /-- FX18 LD ST, Vx (R106). -/
  | ldStVx (x : Nibble)
  /-- FX1E ADD I, Vx (R90). -/
  | addI (x : Nibble)
  /-- FX29 LD F, Vx (R91). -/
  | ldF (x : Nibble)
  /-- FX33 LD B, Vx (R92). -/
  | ldB (x : Nibble)
  /-- FX55 LD [I], Vx (R93). -/
  | ldMemVx (x : Nibble)
  /-- FX65 LD Vx, [I] (R94). -/
  | ldVxMem (x : Nibble)
deriving DecidableEq, Repr

end Sys2Proof
end

