-- ==== Sys2Proof/WellFormed.lean ====
section
/-! DEFINITION. Which instruction words are well formed, written from 30_encoding.md R57's table of the illegal words and
not from the decoder's table (R56), so that the two can be held against each other. A term of `Instr` needs no check of its
own: its operand types are the exact widths of the fields (R53), and no rule restricts a field further. -/

namespace Sys2Proof

/-- The low nibbles N for which 8XYN is illegal (R57). -/
def illegalAluSub : List Nibble := [0x8#4, 0x9#4, 0xA#4, 0xB#4, 0xC#4, 0xD#4, 0xF#4]

/-- The low bytes NN for which FXNN is legal (R57). -/
def legalMiscSub : List Byte := [0x07#8, 0x0A#8, 0x15#8, 0x18#8, 0x1E#8, 0x29#8, 0x33#8, 0x55#8, 0x65#8]

/-- R57: whether a 16-bit word is an instruction; one clause for each row of the rule's table, and every other word is
legal. -/
def legalWord (w : Word) : Bool :=
  let op := w.extractLsb' 12 4
  let n := w.extractLsb' 0 4
  let nn := w.extractLsb' 0 8
  if op = 0x0#4 then w == 0x00E0#16 || w == 0x00EE#16
  else if op = 0x5#4 then n == 0x0#4
  else if op = 0x8#4 then !illegalAluSub.contains n
  else if op = 0x9#4 then n == 0x0#4
  else if op = 0xE#4 then nn == 0x9E#8 || nn == 0xA1#8
  else if op = 0xF#4 then legalMiscSub.contains nn
  else true

end Sys2Proof
end

