-- ==== Sys2Proof/Decode.lean ====
section
/-! DEFINITION. The decoder, row by row from 30_encoding.md R56 (mask, match, fields of R53), and the encoder, written from
the same table; and the assembler text of an instruction (R59). -/

namespace Sys2Proof

/-- Field `x` of a word, w[11:8] (R53). -/
def fieldX (w : Word) : Nibble := w.extractLsb' 8 4

/-- Field `y`, w[7:4]. -/
def fieldY (w : Word) : Nibble := w.extractLsb' 4 4

/-- Field `n`, w[3:0]. -/
def fieldN (w : Word) : Nibble := w.extractLsb' 0 4

/-- Field `nn`, w[7:0]. -/
def fieldNN (w : Word) : Byte := w.extractLsb' 0 8

/-- Field `nnn`, w[11:0]. -/
def fieldNNN (w : Word) : Addr12 := w.extractLsb' 0 12

/-- One row of R56's table. -/
structure OpcodeRow where
  mask    : Word
  pattern : Word
  build   : Word → Instr

/-- R56: a row matches when (w & mask) = match. -/
def rowMatches (w : Word) (r : OpcodeRow) : Bool := (w &&& r.mask) == r.pattern

/-- Rows 1 to 8 of R56: the display clear, jumps, calls and skips. -/
def controlRows : List OpcodeRow :=
  [ ⟨0xFFFF#16, 0x00E0#16, fun _ => .cls⟩,
    ⟨0xFFFF#16, 0x00EE#16, fun _ => .ret⟩,
    ⟨0xF000#16, 0x1000#16, fun w => .jp (fieldNNN w)⟩,
    ⟨0xF000#16, 0x2000#16, fun w => .call (fieldNNN w)⟩,
    ⟨0xF000#16, 0x3000#16, fun w => .seByte (fieldX w) (fieldNN w)⟩,
    ⟨0xF000#16, 0x4000#16, fun w => .sneByte (fieldX w) (fieldNN w)⟩,
    ⟨0xF00F#16, 0x5000#16, fun w => .seReg (fieldX w) (fieldY w)⟩,
    ⟨0xF00F#16, 0x9000#16, fun w => .sneReg (fieldX w) (fieldY w)⟩ ]

/-- Rows 9 to 19 of R56: immediate loads and the 8XYN family. -/
def aluRows : List OpcodeRow :=
  [ ⟨0xF000#16, 0x6000#16, fun w => .ldByte (fieldX w) (fieldNN w)⟩,
    ⟨0xF000#16, 0x7000#16, fun w => .addByte (fieldX w) (fieldNN w)⟩,
    ⟨0xF00F#16, 0x8000#16, fun w => .ldReg (fieldX w) (fieldY w)⟩,
    ⟨0xF00F#16, 0x8001#16, fun w => .orReg (fieldX w) (fieldY w)⟩,
    ⟨0xF00F#16, 0x8002#16, fun w => .andReg (fieldX w) (fieldY w)⟩,
    ⟨0xF00F#16, 0x8003#16, fun w => .xorReg (fieldX w) (fieldY w)⟩,
    ⟨0xF00F#16, 0x8004#16, fun w => .addReg (fieldX w) (fieldY w)⟩,
    ⟨0xF00F#16, 0x8005#16, fun w => .subReg (fieldX w) (fieldY w)⟩,
    ⟨0xF00F#16, 0x8006#16, fun w => .shr (fieldX w) (fieldY w)⟩,
    ⟨0xF00F#16, 0x8007#16, fun w => .subn (fieldX w) (fieldY w)⟩,
    ⟨0xF00F#16, 0x800E#16, fun w => .shl (fieldX w) (fieldY w)⟩ ]

/-- Rows 20 to 25 of R56: index, indexed jump, random, draw, key skips. -/
def indexRows : List OpcodeRow :=
  [ ⟨0xF000#16, 0xA000#16, fun w => .ldI (fieldNNN w)⟩,
    ⟨0xF000#16, 0xB000#16, fun w => .jpV0 (fieldNNN w)⟩,
    ⟨0xF000#16, 0xC000#16, fun w => .rnd (fieldX w) (fieldNN w)⟩,
    ⟨0xF000#16, 0xD000#16, fun w => .drw (fieldX w) (fieldY w) (fieldN w)⟩,
    ⟨0xF0FF#16, 0xE09E#16, fun w => .skp (fieldX w)⟩,
    ⟨0xF0FF#16, 0xE0A1#16, fun w => .sknp (fieldX w)⟩ ]

/-- Rows 26 to 34 of R56: the FXNN family. -/
def miscRows : List OpcodeRow :=
  [ ⟨0xF0FF#16, 0xF007#16, fun w => .ldVxDt (fieldX w)⟩,
    ⟨0xF0FF#16, 0xF00A#16, fun w => .ldVxK (fieldX w)⟩,
    ⟨0xF0FF#16, 0xF015#16, fun w => .ldDtVx (fieldX w)⟩,
    ⟨0xF0FF#16, 0xF018#16, fun w => .ldStVx (fieldX w)⟩,
    ⟨0xF0FF#16, 0xF01E#16, fun w => .addI (fieldX w)⟩,
    ⟨0xF0FF#16, 0xF029#16, fun w => .ldF (fieldX w)⟩,
    ⟨0xF0FF#16, 0xF033#16, fun w => .ldB (fieldX w)⟩,
    ⟨0xF0FF#16, 0xF055#16, fun w => .ldMemVx (fieldX w)⟩,
    ⟨0xF0FF#16, 0xF065#16, fun w => .ldVxMem (fieldX w)⟩ ]

/-- R56: the opcode map, in the order of its rows. -/
def opcodeTable : List OpcodeRow := controlRows ++ aluRows ++ indexRows ++ miscRows

/-- R62: Decode(w); `none` is the word that matches no row, for which the core raises UnknownOpcode (R57). -/
def decodeWord (w : Word) : Option Instr :=
  (opcodeTable.find? (rowMatches w)).map (fun r => r.build w)

/-- Why a sequence of bytes does not begin with an instruction. -/
inductive DecodeError where
  /-- Fewer than the two bytes of a word (R53). -/
  | truncated
  /-- The word matches no row (R57): the machine raises UnknownOpcode. -/
  | unknownOpcode (w : Word)
deriving DecidableEq, Repr

/-- R41: the instruction word of two consecutive bytes, the byte at the lower address being bits 15..8. -/
def wordOfBytes (hi lo : Byte) : Word := hi ++ lo

/-- The decoder on bytes in address order: the instruction and the bytes after it, or the reason there is none. -/
def decodeBytes : List Byte → Except DecodeError (Instr × List Byte)
  | hi :: lo :: rest =>
    match decodeWord (wordOfBytes hi lo) with
    | some i => .ok (i, rest)
    | none => .error (.unknownOpcode (wordOfBytes hi lo))
  | _ => .error .truncated

/-- R41 read backwards: the two bytes of a word in address order. -/
def bytesOfWord (w : Word) : List Byte := [w.extractLsb' 8 8, w.extractLsb' 0 8]

/-- The bytes of an instruction whose bits are `w`, of which the table gives `nbits`; the bits above are 0. -/
def tableBytes (nbits w : Nat) : List Byte := bytesOfWord (BitVec.ofNat 16 (w % 2 ^ nbits))

/-- The instruction this decoder reads from an instruction whose bits are `w`, numbered as spec/opcode_table.json numbers
them. -/
def decodeTableWord (nbits w : Nat) : Option Instr :=
  match decodeBytes (tableBytes nbits w) with
  | .ok (i, _) => some i
  | .error _ => none

/-- R56: the word of an instruction, from its row's pattern and fields. -/
def encode : Instr → Word
  | .cls => 0x00E0#16
  | .ret => 0x00EE#16
  | .jp nnn => 0x1#4 ++ nnn
  | .call nnn => 0x2#4 ++ nnn
  | .seByte x nn => 0x3#4 ++ x ++ nn
  | .sneByte x nn => 0x4#4 ++ x ++ nn
  | .seReg x y => 0x5#4 ++ x ++ y ++ 0x0#4
  | .sneReg x y => 0x9#4 ++ x ++ y ++ 0x0#4
  | .ldByte x nn => 0x6#4 ++ x ++ nn
  | .addByte x nn => 0x7#4 ++ x ++ nn
  | .ldReg x y => 0x8#4 ++ x ++ y ++ 0x0#4
  | .orReg x y => 0x8#4 ++ x ++ y ++ 0x1#4
  | .andReg x y => 0x8#4 ++ x ++ y ++ 0x2#4
  | .xorReg x y => 0x8#4 ++ x ++ y ++ 0x3#4
  | .addReg x y => 0x8#4 ++ x ++ y ++ 0x4#4
  | .subReg x y => 0x8#4 ++ x ++ y ++ 0x5#4
  | .shr x y => 0x8#4 ++ x ++ y ++ 0x6#4
  | .subn x y => 0x8#4 ++ x ++ y ++ 0x7#4
  | .shl x y => 0x8#4 ++ x ++ y ++ 0xE#4
  | .ldI nnn => 0xA#4 ++ nnn
  | .jpV0 nnn => 0xB#4 ++ nnn
  | .rnd x nn => 0xC#4 ++ x ++ nn
  | .drw x y n => 0xD#4 ++ x ++ y ++ n
  | .skp x => 0xE#4 ++ x ++ 0x9E#8
  | .sknp x => 0xE#4 ++ x ++ 0xA1#8
  | .ldVxDt x => 0xF#4 ++ x ++ 0x07#8
  | .ldVxK x => 0xF#4 ++ x ++ 0x0A#8
  | .ldDtVx x => 0xF#4 ++ x ++ 0x15#8
  | .ldStVx x => 0xF#4 ++ x ++ 0x18#8
  | .addI x => 0xF#4 ++ x ++ 0x1E#8
  | .ldF x => 0xF#4 ++ x ++ 0x29#8
  | .ldB x => 0xF#4 ++ x ++ 0x33#8
  | .ldMemVx x => 0xF#4 ++ x ++ 0x55#8
  | .ldVxMem x => 0xF#4 ++ x ++ 0x65#8

/-- The two bytes of an instruction, in address order. -/
def encodeBytes (i : Instr) : List Byte := bytesOfWord (encode i)

/-! ### Assembler text (R59) -/

/-- A hexadecimal digit, capital. -/
def hexDigit (d : Nibble) : Char := ("0123456789ABCDEF".toList)[d.toNat]?.getD '0'

/-- A number in hexadecimal with the prefix 0x, as many digits as the list has. -/
def hexText (ds : List Nibble) : List Char := '0' :: 'x' :: ds.map hexDigit

/-- Vx, the register's digit in hexadecimal. -/
def regText (x : Nibble) : List Char := ['V', hexDigit x]

/-- An 8-bit number. -/
def byteText (b : Byte) : List Char := hexText [b.extractLsb' 4 4, b.extractLsb' 0 4]

/-- A 12-bit number. -/
def addrText (a : Addr12) : List Char := hexText [a.extractLsb' 8 4, a.extractLsb' 4 4, a.extractLsb' 0 4]

/-- A mnemonic and its operands, separated by commas. -/
def lineText (name : String) : List (List Char) → List Char
  | [] => name.toList
  | o :: os => name.toList ++ ' ' :: os.foldl (fun acc p => acc ++ ',' :: ' ' :: p) o

/-- R59: an instruction in the conventional syntax of column "name" of R56. The optional Vy of the shifts is always
written. -/
def Instr.text : Instr → List Char
  | .cls => lineText "CLS" []
  | .ret => lineText "RET" []
  | .jp nnn => lineText "JP" [addrText nnn]
  | .call nnn => lineText "CALL" [addrText nnn]
  | .seByte x nn => lineText "SE" [regText x, byteText nn]
  | .sneByte x nn => lineText "SNE" [regText x, byteText nn]
  | .seReg x y => lineText "SE" [regText x, regText y]
  | .sneReg x y => lineText "SNE" [regText x, regText y]
  | .ldByte x nn => lineText "LD" [regText x, byteText nn]
  | .addByte x nn => lineText "ADD" [regText x, byteText nn]
  | .ldReg x y => lineText "LD" [regText x, regText y]
  | .orReg x y => lineText "OR" [regText x, regText y]
  | .andReg x y => lineText "AND" [regText x, regText y]
  | .xorReg x y => lineText "XOR" [regText x, regText y]
  | .addReg x y => lineText "ADD" [regText x, regText y]
  | .subReg x y => lineText "SUB" [regText x, regText y]
  | .shr x y => lineText "SHR" [regText x, regText y]
  | .subn x y => lineText "SUBN" [regText x, regText y]
  | .shl x y => lineText "SHL" [regText x, regText y]
  | .ldI nnn => lineText "LD" ["I".toList, addrText nnn]
  | .jpV0 nnn => lineText "JP" ["V0".toList, addrText nnn]
  | .rnd x nn => lineText "RND" [regText x, byteText nn]
  | .drw x y n => lineText "DRW" [regText x, regText y, hexText [n]]
  | .skp x => lineText "SKP" [regText x]
  | .sknp x => lineText "SKNP" [regText x]
  | .ldVxDt x => lineText "LD" [regText x, "DT".toList]
  | .ldVxK x => lineText "LD" [regText x, "K".toList]
  | .ldDtVx x => lineText "LD" ["DT".toList, regText x]
  | .ldStVx x => lineText "LD" ["ST".toList, regText x]
  | .addI x => lineText "ADD" ["I".toList, regText x]
  | .ldF x => lineText "LD" ["F".toList, regText x]
  | .ldB x => lineText "LD" ["B".toList, regText x]
  | .ldMemVx x => lineText "LD" ["[I]".toList, regText x]
  | .ldVxMem x => lineText "LD" [regText x, "[I]".toList]

end Sys2Proof
end

