-- ==== Sys2Proof/Config.lean ====
section
/-! DEFINITION. The parameters of this hardware: the constants of 00_scope.md R7, and the three configuration
arguments of R8, which every state carries so that a claim quantifies over them or names the value it assumes. The values
the spec leaves open are uninterpreted constants: nothing in Lean can evaluate them. -/

namespace Sys2Proof

/-- MEM_SIZE: bytes of memory, addresses 0x000..0xFFF (R7, R37). -/
abbrev memSize : Nat := 4096

/-- LOAD_ADDR: where the ROM is loaded and where PC starts (R7, R129). -/
abbrev loadAddr : Word := 0x0200#16

/-- STACK_DEPTH (R7, R21). -/
abbrev stackDepth : Nat := 16

/-- DISP_W (R7, R95). -/
abbrev dispW : Nat := 64

/-- DISP_H (R7, R95). -/
abbrev dispH : Nat := 32

/-- NKEYS (R7, R27). -/
abbrev nKeys : Nat := 16

/-- FONT_STRIDE: bytes of one glyph (R7, R91). -/
abbrev fontStride : Nat := 5

/-- SHIFT_SOURCE: the register that 8XY6 and 8XYE shift (R7, R85, R87; decision D9). -/
inductive ShiftSource where
  | vx
  | vy
deriving DecidableEq, Repr, Inhabited

/-- VF_WRITE_ORDER: which write survives where result and flag both go to VF (R7, R63, R76; decision D8). -/
inductive VfWriteOrder where
  | flagLast
  | resultLast
deriving DecidableEq, Repr, Inhabited

/-- The configuration arguments of R8. The type of `fontBase` is decision D13's bound FONT_BASE + 80 <= 0x200, that is
FONT_BASE <= 432. -/
structure Config where
  fontBase     : Fin 433
  shiftSource  : ShiftSource
  vfWriteOrder : VfWriteOrder
deriving DecidableEq, Repr, Inhabited

/-- The configuration the core was constructed with (R8, R128). FREE: the spec leaves it open, so it has no body.
DESIGN CHOICE, safe: log 2. -/
opaque Config.construction : Config

/-- The random source as a stream: its k-th byte (60_exceptions.md R123). FREE: the spec fixes no sequence, so it has no
body. DESIGN CHOICE: log 3. -/
opaque Config.randomByte : Nat → Byte

/-- What KEY_EVENT(k, pressed) returns in a core halted with the given FAULT_CAUSE: `none` is Ok, `some c` is Fault with the
cause whose code is c + 1 (10_state.md R33, 60_exceptions.md R108). FREE: R111 states no outcome, so it has no body.
DESIGN CHOICE: log 7. -/
opaque Config.haltedKeyEvent : BitVec 3 → Byte → Bool → Option (Fin 5)

/-- The same for LOAD(a, bytes). FREE. DESIGN CHOICE: log 7. -/
opaque Config.haltedLoad : BitVec 3 → Word → List Byte → Option (Fin 5)

end Sys2Proof
end

