-- ==== Sys2Proof/Machine/State.lean ====
section
/-! DEFINITION. The state of the core, the causes of a fault, and the state after reset. -/

namespace Sys2Proof.Machine

/-- The five causes of a fault (60_exceptions.md R107). Raising one is a next state (R109: HALTED and FAULT_CAUSE are
written), never an `Outcome.fault`. -/
inductive FaultCause where
  /-- CALL with SP = 16. -/
  | stackOverflow
  /-- RET with SP = 0. -/
  | stackUnderflow
  /-- An address at or above MEM_SIZE: fetch, DXYN, FX33, FX55, FX65, LOAD. -/
  | outOfBounds
  /-- A word that matches no row of the opcode map. -/
  | unknownOpcode
  /-- A key index at or above 16: EX9E, EXA1, KEY_EVENT. -/
  | badKeyIndex
deriving DecidableEq, Repr

/-- Why a step ends with no next state. -/
inductive Fault where
  /-- Raised by `step` alone, when HALTED = 1 before it: STEP returns Fault(FAULT_CAUSE) and changes nothing (R60, R111);
  carries FAULT_CAUSE as recorded. Safe: the spec lets nothing more be executed until RESET. -/
  | halted (faultCause : BitVec 3)
deriving DecidableEq, Repr

/-- Why an instruction has no meaning in this model. -/
inductive Refusal where
  /-- Raised only by an arm of `exec` whose instruction has not been given its meaning; no arm raises it now. Safe. -/
  | notModelled (mnemonic : String)
deriving DecidableEq, Repr

/-- Memory: the cells that do not hold 0x00, addresses strictly rising, all below MEM_SIZE (`Memory.wf`). -/
abbrev Memory := List Host.Cell

/-- The state of the core (10_state.md), and the two fields of the model's own at the end. -/
structure State where
  /-- V0..VF (R14). -/
  v          : Vector Byte 16
  /-- PC (R17). -/
  pc         : Word
  /-- I, the index register (R20). -/
  index      : Word
  /-- stack[0..15] (R21). -/
  stack      : Vector Word 16
  /-- SP, the number of entries in use, 0..16 (R21). -/
  sp         : Fin 17
  /-- DT, the delay timer (R24). -/
  dt         : Byte
  /-- ST, the sound timer (R24). -/
  st         : Byte
  /-- M[0..4095] (R25). -/
  mem        : Memory
  /-- FB[0..2047] (R26), row by row. -/
  fb         : FrameBuffer
  /-- K[0..15], true = pressed (R27). -/
  keys       : Vector Bool 16
  /-- HALTED (R30). -/
  halted     : Bool
  /-- FAULT_CAUSE (R30, R108). -/
  faultCause : BitVec 3
  /-- The configuration arguments (R8), written by nothing: the model's own field (log 2). -/
  config     : Config
  /-- How many bytes the random source has given: the model's own field (R123; log 3). -/
  draws      : Nat
deriving DecidableEq, Repr

/-- The state at construction and after the first reset: R36's table. The configuration is the uninterpreted constant of
log 2; the count of draws is DESIGN CHOICE 0 (log 3). -/
def State.reset : State where
  v          := Vector.replicate 16 0x00#8
  pc         := loadAddr
  index      := 0x0000#16
  stack      := Vector.replicate 16 0x0000#16
  sp         := 0
  dt         := 0x00#8
  st         := 0x00#8
  mem        := []
  fb         := Vector.replicate 32 0#64
  keys       := Vector.replicate 16 false
  halted     := false
  faultCause := 0#3
  config     := Config.construction
  draws      := 0

end Sys2Proof.Machine
end

