-- ==== Sys2Proof/Machine/Ops.lean ====
section
/-! DEFINITION. The named operations over memory, registers, stack, display, keypad and random source (the primitives of
00_scope.md R11), raising a fault and leaving the halt, and fetching a word. -/

namespace Sys2Proof.Machine

/-! ### Memory as a canonical list -/

/-- The byte at `a`: 0x00 where no cell is listed (R25, R49). Cells are in rising order, so the search ends at the first
cell above `a`. -/
def Memory.get : Memory → Nat → Byte
  | [], _ => 0x00#8
  | (k, b) :: m, a => if a < k then 0x00#8 else if a = k then b else Memory.get m a

/-- `m` with byte `b` at `a`; writing 0x00 removes the cell, so that equal memories are equal lists. -/
def Memory.set : Memory → Nat → Byte → Memory
  | [], a, b => if b = 0x00#8 then [] else [(a, b)]
  | (k, c) :: m, a, b =>
    if a < k then (if b = 0x00#8 then (k, c) :: m else (a, b) :: (k, c) :: m)
    else if a = k then (if b = 0x00#8 then m else (a, b) :: m)
    else (k, c) :: Memory.set m a b

/-- The canonical form from address `lo` upwards. -/
def Memory.wfFrom : Nat → Memory → Bool
  | _, [] => true
  | lo, (a, b) :: m => decide (lo ≤ a) && decide (a < memSize) && decide (b ≠ 0x00#8) && Memory.wfFrom (a + 1) m

/-- The canonical form: addresses strictly rising and below MEM_SIZE (R37), no cell holding 0x00. -/
def Memory.wf (m : Memory) : Bool := Memory.wfFrom 0 m

/-! ### Registers -/

/-- `V[i]` (R11, R14). -/
def getV (s : State) (i : Nibble) : Byte := s.v[i.toNat]

/-- `V[i] <- b`. -/
def setV (s : State) (i : Nibble) (b : Byte) : State := { s with v := s.v.set i.toNat b }

/-- `pc <- a`. -/
def setPc (s : State) (a : Word) : State := { s with pc := a }

/-- `I <- a`. -/
def setIndex (s : State) (a : Word) : State := { s with index := a }

/-- `DT <- b`. -/
def setDt (s : State) (b : Byte) : State := { s with dt := b }

/-- `ST <- b`. -/
def setSt (s : State) (b : Byte) : State := { s with st := b }

/-- `pc <- (pc + 2) mod 65536`: the advance of STEP (R60) and of a skip that holds (R66). -/
def advancePc (s : State) : State := setPc s (s.pc + 2#16)

/-- `pc <- (pc - 2 + 65536) mod 65536`: the rewind of FX0A (R103). -/
def rewindPc (s : State) : State := setPc s (s.pc - 2#16)

/-- R66: the skip of exactly one word, when the condition holds. -/
def skipIf (s : State) (cond : Bool) : State := if cond then advancePc s else s

/-! ### Taking a fault, and the one way out of it -/

/-- R108: the code of a cause in FAULT_CAUSE. -/
def FaultCause.code : FaultCause → BitVec 3
  | .stackOverflow => 1#3
  | .stackUnderflow => 2#3
  | .outOfBounds => 3#3
  | .unknownOpcode => 4#3
  | .badKeyIndex => 5#3

/-- R109: `raise Fault(cause)`. HALTED <- 1 and FAULT_CAUSE <- code(cause); no handler, vector, saved state or mode. What the
operation wrote before stays (R110). -/
def raiseFault (s : State) (c : FaultCause) : State := { s with halted := true, faultCause := c.code }

/-- R127: RESET, which alone leaves the halt (R113). The state of R36; the configuration and the random source are not
changed. -/
def resetCore (s : State) : State := { State.reset with config := s.config, draws := s.draws }

/-! ### Memory -/

/-- R38: `MemRead(addr, 1)`; `none` where it raises OutOfBounds. The address is a natural of any size (R40). -/
def memRead (s : State) (a : Nat) : Option Byte :=
  if a < memSize then some (Memory.get s.mem a) else none

/-- R39: `MemWrite(addr, 1, b)`; `none` where it raises OutOfBounds and writes nothing. -/
def memWrite (s : State) (a : Nat) (b : Byte) : Option State :=
  if a < memSize then some { s with mem := Memory.set s.mem a b } else none

/-- Bytes written to `a`, `a + 1`, ... in rising order; OutOfBounds at the first address that does not exist, with the
writes before it done (R110). -/
def storeBytes (s : State) (a : Nat) : List Byte → State
  | [] => s
  | b :: bs =>
    match memWrite s a b with
    | some t => storeBytes t (a + 1) bs
    | none => raiseFault s .outOfBounds

/-- `V[i] <- MemRead(a + i, 1)` for `i`, `i + 1`, ... (as many as the last argument) in rising order; OutOfBounds at the
first address that does not exist, with the loads before it done (R94, R110). -/
def loadRegs (s : State) (a i : Nat) : Nat → State
  | 0 => s
  | k + 1 =>
    match memRead s (a + i) with
    | some b => loadRegs (setV s (BitVec.ofNat 4 i) b) a (i + 1) k
    | none => raiseFault s .outOfBounds

/-! ### The call stack -/

/-- R22: `Push(a)`; `none` where it raises StackOverflow and changes nothing. -/
def push (s : State) (a : Word) : Option State :=
  if h : s.sp.val < 16 then
    some { s with stack := s.stack.set s.sp.val a, sp := ⟨s.sp.val + 1, by omega⟩ }
  else none

/-- R23: `Pop()`; `none` where it raises StackUnderflow. The entry keeps its value. -/
def pop (s : State) : Option (Word × State) :=
  if h : 0 < s.sp.val then
    some (s.stack[s.sp.val - 1], { s with sp := ⟨s.sp.val - 1, by omega⟩ })
  else none

/-! ### Keypad -/

/-- R28: `KeyDown(k)` for k in 0..15. -/
def keyDown (s : State) (k : Nibble) : Bool := s.keys[k.toNat]

/-- The key numbers in increasing order (R29). -/
def keyOrder : List Nibble := (List.range nKeys).map (BitVec.ofNat 4)

/-- R29: `FirstKey()`, the lowest-indexed pressed key. -/
def firstKey (s : State) : Option Nibble := keyOrder.find? (keyDown s)

/-! ### Display -/

/-- The row that a y coordinate names after wrapping (R95). -/
def wrapRow (y : Nat) : Fin 32 := ⟨y % dispH, Nat.mod_lt _ (by decide)⟩

/-- The column that an x coordinate names after wrapping (R95). -/
def wrapCol (x : Nat) : Nat := x % dispW

/-- The pixel at (x, y), each coordinate wrapped on its own (R95). -/
def pixel (s : State) (x y : Nat) : Bool := s.fb[wrapRow y].getLsbD (wrapCol x)

/-- `FB[k]` for k < 2048: the pixel whose index x + 64*y is k (R26, R95). -/
def fbAt (s : State) (k : Nat) : Bool := pixel s (k % dispW) (k / dispW)

/-- `FB <- f`. -/
def setFb (s : State) (f : FrameBuffer) : State := { s with fb := f }

/-- R96: `DisplayXor(x, y)`: toggles the pixel and returns its prior value. -/
def displayXor (s : State) (x y : Nat) : State × Bool :=
  (setFb s (s.fb.set (wrapRow y) (s.fb[wrapRow y] ^^^ BitVec.twoPow 64 (wrapCol x))), pixel s x y)

/-- R97: `DisplayClear()`. -/
def displayClear (s : State) : State := setFb s (Vector.replicate 32 0#64)

/-- One set bit of a sprite (R99): toggle the pixel, and VF <- 1 if it was lit. -/
def blitPixel (s : State) (x y : Nat) : State :=
  match displayXor s x y with
  | (t, true) => setV t vf 0x01#8
  | (t, false) => t

/-- The columns `c`, `c + 1`, ... (as many as the last argument) of a sprite row `b` drawn from (x, y), the most
significant bit first (R99); a 0 bit leaves its pixel alone. -/
def blitCols (s : State) (x y : Nat) (b : Byte) (c : Nat) : Nat → State
  | 0 => s
  | k + 1 => blitCols (if b.getLsbD (7 - c) then blitPixel s (x + c) y else s) x y b (c + 1) k

/-- The rows `r`, `r + 1`, ... (as many as the last argument) of the sprite at I drawn from (x, y) (R99); OutOfBounds at the
first row whose address does not exist, with the rows before it drawn (R110). -/
def blitRows (s : State) (x y r : Nat) : Nat → State
  | 0 => s
  | k + 1 =>
    match memRead s (s.index.toNat + r) with
    | some b => blitRows (blitCols s x (y + r) b 0 8) x y (r + 1) k
    | none => raiseFault s .outOfBounds

/-! ### Random source -/

/-- R123: `RndByte()`: the next byte of the source, a free value (log 3), and the state in which it has been drawn. -/
def rndByte (s : State) : Byte × State :=
  (Config.randomByte s.draws, { s with draws := s.draws + 1 })

/-! ### Fetch -/

/-- R61: `Fetch()`: the word at pc, high byte first (R41); `none` where either read raises OutOfBounds. -/
def fetch (s : State) : Option Word :=
  match memRead s s.pc.toNat, memRead s (s.pc.toNat + 1) with
  | some hi, some lo => some (wordOfBytes hi lo)
  | _, _ => none

end Sys2Proof.Machine
end

