-- ==== Sys2Proof/Machine/Flags.lean ====
section
/-! DEFINITION. Every flag computation of the spec: carry, no-borrow and the shifted-out bit, and `Write2`, which writes a
result and a flag (41_alu.md R75, R76). VF is the only flag (10_state.md R19). -/

namespace Sys2Proof.Machine

/-- A flag as the byte written to VF: 0 or 1 (R75). -/
def flagByte (f : Bool) : Byte := if f then 0x01#8 else 0x00#8

/-- R83: carry out of bit 7. -/
def carryOut (a b : Byte) : Bool := decide (256 ≤ a.toNat + b.toNat)

/-- R84, R86: 1 where no borrow occurs, minuend >= subtrahend. -/
def noBorrow (a b : Byte) : Bool := decide (b.toNat ≤ a.toNat)

/-- R85: the least significant bit, captured before the shift. -/
def lowBit (a : Byte) : Bool := decide (a.toNat % 2 = 1)

/-- R87: the most significant bit, captured before the shift. -/
def highBit (a : Byte) : Bool := decide (128 ≤ a.toNat)

/-- R10, R83: `(a + b) mod 256`. -/
def addMod (a b : Byte) : Byte := BitVec.ofNat 8 (a.toNat + b.toNat)

/-- R10, R84: `(a - b + 256) mod 256`. -/
def subMod (a b : Byte) : Byte := BitVec.ofNat 8 (a.toNat + 256 - b.toNat)

/-- R85: `a >> 1`. -/
def shiftRight1 (a : Byte) : Byte := BitVec.ofNat 8 (a.toNat / 2)

/-- R87: `(a << 1) mod 256`. -/
def shiftLeft1 (a : Byte) : Byte := BitVec.ofNat 8 (a.toNat * 2)

/-- R76: `Write2(r, f)`: result to VX and flag to VF, in the order VF_WRITE_ORDER gives. -/
def write2 (s : State) (x : Nibble) (r : Byte) (f : Bool) : State :=
  match s.config.vfWriteOrder with
  | .flagLast => setV (setV s x r) vf (flagByte f)
  | .resultLast => setV (setV s vf (flagByte f)) x r

end Sys2Proof.Machine
end

