-- ==== Sys2Proof/Machine/Operands.lean ====
section
/-! DEFINITION. Every operand form of the spec: immediates zero-extended into PC and I, the indexed jump target, the shifted
register, the key index, the font address, the decimal digits, and the registers a bulk store writes. -/

namespace Sys2Proof.Machine

/-- R54: `zext_16(nnn)`, the target of JP, CALL and LD I. -/
def zextAddr (nnn : Addr12) : Word := BitVec.ofNat 16 nnn.toNat

/-- R74: `(V[0] + nnn) mod 65536`, not masked to 12 bits. -/
def indexedTarget (s : State) (nnn : Addr12) : Word := BitVec.ofNat 16 ((getV s 0x0#4).toNat + nnn.toNat)

/-- R85, R87: the register a shift reads, by SHIFT_SOURCE. -/
def shiftOperand (s : State) (x y : Nibble) : Byte :=
  match s.config.shiftSource with
  | .vx => getV s x
  | .vy => getV s y

/-- R101, R102: the key that VX names; `none` where the index is not below 16. -/
def keyOperand (s : State) (x : Nibble) : Option Nibble :=
  if (getV s x).toNat < nKeys then some (BitVec.ofNat 4 (getV s x).toNat) else none

/-- R90: `(I + V[x]) mod 65536`. -/
def indexSum (s : State) (x : Nibble) : Word := BitVec.ofNat 16 (s.index.toNat + (getV s x).toNat)

/-- R91: `FONT_BASE + (V[x] & 0x0F) * 5`. -/
def glyphAddr (s : State) (x : Nibble) : Word :=
  BitVec.ofNat 16 (s.config.fontBase.val + (getV s x &&& 0x0F#8).toNat * fontStride)

/-- R92: the hundreds, tens and ones digits of a byte. -/
def decimalDigits (d : Byte) : List Byte :=
  [BitVec.ofNat 8 (d.toNat / 100), BitVec.ofNat 8 (d.toNat / 10 % 10), BitVec.ofNat 8 (d.toNat % 10)]

/-- R93: V0..VX in rising order. -/
def regsUpTo (s : State) (x : Nibble) : List Byte :=
  (List.range (x.toNat + 1)).map (fun i => getV s (BitVec.ofNat 4 i))

end Sys2Proof.Machine
end

