-- ==== Sys2Proof/Machine/Alu.lean ====
section
/-! DEFINITION. ALU and register moves: 6XNN, 7XNN, 8XY0..8XYE, CXNN (41_alu.md). None of them changes pc. -/

namespace Sys2Proof.Machine

/-- R77. -/
def execLdByte (x : Nibble) (nn : Byte) (s : State) : Host.Outcome State Fault Refusal :=
  .next (setV s x nn)

/-- R78: no flag. -/
def execAddByte (x : Nibble) (nn : Byte) (s : State) : Host.Outcome State Fault Refusal :=
  .next (setV s x (addMod (getV s x) nn))

/-- R79. -/
def execLdReg (x y : Nibble) (s : State) : Host.Outcome State Fault Refusal :=
  .next (setV s x (getV s y))

/-- R80: VF is not changed unless it is the destination. -/
def execOrReg (x y : Nibble) (s : State) : Host.Outcome State Fault Refusal :=
  .next (setV s x (getV s x ||| getV s y))

/-- R81: as R80 for VF. -/
def execAndReg (x y : Nibble) (s : State) : Host.Outcome State Fault Refusal :=
  .next (setV s x (getV s x &&& getV s y))

/-- R82: as R80 for VF. -/
def execXorReg (x y : Nibble) (s : State) : Host.Outcome State Fault Refusal :=
  .next (setV s x (getV s x ^^^ getV s y))

/-- R83: VF = carry out of bit 7. -/
def execAddReg (x y : Nibble) (s : State) : Host.Outcome State Fault Refusal :=
  .next (write2 s x (addMod (getV s x) (getV s y)) (carryOut (getV s x) (getV s y)))

/-- R84: VX - VY, VF = no borrow. -/
def execSubReg (x y : Nibble) (s : State) : Host.Outcome State Fault Refusal :=
  .next (write2 s x (subMod (getV s x) (getV s y)) (noBorrow (getV s x) (getV s y)))

/-- R85: logical shift right by 1 of the register SHIFT_SOURCE names, VF = its bit 0. -/
def execShr (x y : Nibble) (s : State) : Host.Outcome State Fault Refusal :=
  .next (write2 s x (shiftRight1 (shiftOperand s x y)) (lowBit (shiftOperand s x y)))

/-- R86: VY - VX, VF = no borrow. -/
def execSubn (x y : Nibble) (s : State) : Host.Outcome State Fault Refusal :=
  .next (write2 s x (subMod (getV s y) (getV s x)) (noBorrow (getV s y) (getV s x)))

/-- R87: shift left by 1 of the register SHIFT_SOURCE names, VF = its bit 7. -/
def execShl (x y : Nibble) (s : State) : Host.Outcome State Fault Refusal :=
  .next (write2 s x (shiftLeft1 (shiftOperand s x y)) (highBit (shiftOperand s x y)))

/-- R88: one byte is drawn, also when nn = 0. -/
def execRnd (x : Nibble) (nn : Byte) (s : State) : Host.Outcome State Fault Refusal :=
  .next (setV (rndByte s).2 x ((rndByte s).1 &&& nn))

end Sys2Proof.Machine
end

