-- ==== Sys2Proof/Machine/Control.lean ====
section
/-! DEFINITION. Control transfer: RET, JP, CALL, the skips, JP V0 (40_control_flow.md). `s.pc` is the instruction's address
+ 2 when a meaning starts (R17, R60). -/

namespace Sys2Proof.Machine

/-- R67: `pc <- Pop()`. -/
def execRet (s : State) : Host.Outcome State Fault Refusal :=
  match pop s with
  | some (a, t) => .next (setPc t a)
  | none => .next (raiseFault s .stackUnderflow)

/-- R68: `pc <- zext_16(nnn)`. -/
def execJp (nnn : Addr12) (s : State) : Host.Outcome State Fault Refusal :=
  .next (setPc s (zextAddr nnn))

/-- R69: `Push(pc); pc <- zext_16(nnn)`. -/
def execCall (nnn : Addr12) (s : State) : Host.Outcome State Fault Refusal :=
  match push s s.pc with
  | some t => .next (setPc t (zextAddr nnn))
  | none => .next (raiseFault s .stackOverflow)

/-- R70. -/
def execSeByte (x : Nibble) (nn : Byte) (s : State) : Host.Outcome State Fault Refusal :=
  .next (skipIf s (getV s x == nn))

/-- R71. -/
def execSneByte (x : Nibble) (nn : Byte) (s : State) : Host.Outcome State Fault Refusal :=
  .next (skipIf s (getV s x != nn))

/-- R72. -/
def execSeReg (x y : Nibble) (s : State) : Host.Outcome State Fault Refusal :=
  .next (skipIf s (getV s x == getV s y))

/-- R73. -/
def execSneReg (x y : Nibble) (s : State) : Host.Outcome State Fault Refusal :=
  .next (skipIf s (getV s x != getV s y))

/-- R74: `pc <- (V[0] + nnn) mod 65536`. -/
def execJpV0 (nnn : Addr12) (s : State) : Host.Outcome State Fault Refusal :=
  .next (setPc s (indexedTarget s nnn))

end Sys2Proof.Machine
end

