-- ==== Sys2Proof/Machine/Display.lean ====
section
/-! DEFINITION. The display instructions: 00E0, DXYN (43_display.md). Neither changes pc. -/

namespace Sys2Proof.Machine

/-- R98: `DisplayClear()`; VF is not changed. -/
def execCls (s : State) : Host.Outcome State Fault Refusal :=
  .next (displayClear s)

/-- R99: VX and VY are read, then VF <- 0, then n rows are blitted; VF = 1 if any pixel toggled was lit. -/
def execDrw (x y n : Nibble) (s : State) : Host.Outcome State Fault Refusal :=
  .next (blitRows (setV s vf 0x00#8) (getV s x).toNat (getV s y).toNat 0 n.toNat)

end Sys2Proof.Machine
end

