-- ==== Sys2Proof/Machine/IndexMemory.lean ====
section
/-! DEFINITION. Index register and memory transfers: ANNN, FX1E, FX29, FX33, FX55, FX65 (42_index_memory.md). None of them
changes pc, and the transfers leave I alone. -/

namespace Sys2Proof.Machine

/-- R89: `I <- zext_16(nnn)`. -/
def execLdI (nnn : Addr12) (s : State) : Host.Outcome State Fault Refusal :=
  .next (setIndex s (zextAddr nnn))

/-- R90: `I <- (I + V[x]) mod 65536`; VF is not written. -/
def execAddI (x : Nibble) (s : State) : Host.Outcome State Fault Refusal :=
  .next (setIndex s (indexSum s x))

/-- R91: I points at the glyph of the low nibble of VX; no memory is read. -/
def execLdF (x : Nibble) (s : State) : Host.Outcome State Fault Refusal :=
  .next (setIndex s (glyphAddr s x))

/-- R92: the decimal digits of VX at I, I + 1, I + 2. -/
def execLdB (x : Nibble) (s : State) : Host.Outcome State Fault Refusal :=
  .next (storeBytes s s.index.toNat (decimalDigits (getV s x)))

/-- R93: V0..VX at I, I + 1, ... -/
def execLdMemVx (x : Nibble) (s : State) : Host.Outcome State Fault Refusal :=
  .next (storeBytes s s.index.toNat (regsUpTo s x))

/-- R94: V0..VX from I, I + 1, ... -/
def execLdVxMem (x : Nibble) (s : State) : Host.Outcome State Fault Refusal :=
  .next (loadRegs s s.index.toNat 0 (x.toNat + 1))

end Sys2Proof.Machine
end

