-- ==== Sys2Proof/Machine/KeypadTimers.lean ====
section
/-! DEFINITION. Keypad and timer instructions: EX9E, EXA1, FX07, FX0A, FX15, FX18 (44_keypad_timers.md). -/

namespace Sys2Proof.Machine

/-- R101: skip if the key VX names is pressed; BadKeyIndex, before any skip, when VX >= 16. -/
def execSkp (x : Nibble) (s : State) : Host.Outcome State Fault Refusal :=
  match keyOperand s x with
  | some k => .next (skipIf s (keyDown s k))
  | none => .next (raiseFault s .badKeyIndex)

/-- R102: skip if it is not pressed; BadKeyIndex when VX >= 16. -/
def execSknp (x : Nibble) (s : State) : Host.Outcome State Fault Refusal :=
  match keyOperand s x with
  | some k => .next (skipIf s (!keyDown s k))
  | none => .next (raiseFault s .badKeyIndex)

/-- R104. -/
def execLdVxDt (x : Nibble) (s : State) : Host.Outcome State Fault Refusal :=
  .next (setV s x s.dt)

/-- R103: latch the lowest pressed key, or rewind pc to this instruction when none is pressed. -/
def execLdVxK (x : Nibble) (s : State) : Host.Outcome State Fault Refusal :=
  match firstKey s with
  | some k => .next (setV s x (BitVec.ofNat 8 k.toNat))
  | none => .next (rewindPc s)

/-- R105. -/
def execLdDtVx (x : Nibble) (s : State) : Host.Outcome State Fault Refusal :=
  .next (setDt s (getV s x))

/-- R106: no beep here. -/
def execLdStVx (x : Nibble) (s : State) : Host.Outcome State Fault Refusal :=
  .next (setSt s (getV s x))

end Sys2Proof.Machine
end

