-- ==== Sys2Proof/Machine/Step.lean ====
section
/-! DEFINITION. STEP (30_encoding.md R60), and placing the instruction a step fetches. -/

namespace Sys2Proof.Machine

/-- R60: STEP. While HALTED = 1 it answers Fault(FAULT_CAUSE) and no state changes (R111). Otherwise fetch, advance pc by 2,
decode, execute. A fetch out of bounds is raised before pc is advanced (R61, R110), an unknown opcode after it. Raising is a
next state (R109): HALTED and FAULT_CAUSE are written. -/
def step (s : State) : Host.Outcome State Fault Refusal :=
  if s.halted then .fault (.halted s.faultCause)
  else
    match fetch s with
    | none => .next (raiseFault s .outOfBounds)
    | some w =>
      match decodeWord w with
      | none => .next (raiseFault (advancePc s) .unknownOpcode)
      | some i => exec i (advancePc s)

/-- `s` with the instruction whose bits are `w` stored at pc and pc + 1, where `step` fetches (R61); the part of it that
falls outside memory is not stored, since no step can fetch it. -/
def State.withFetchWord (s : State) (nbits w : Nat) : State :=
  { s with mem := (storeBytes s s.pc.toNat (tableBytes nbits w)).mem }

end Sys2Proof.Machine
end

