-- ==== Sys2Proof/Machine/Operations.lean ====
section
/-! DEFINITION. The seven operations the host invokes at the core's boundary (10_state.md R33), each atomic (R34), any
sequence of them, and the core's construction and boot (70_reset_and_hazards.md R128, R130). STEP is `step`; the others are
given here. -/

namespace Sys2Proof.Machine

/-- One operation with its inputs (R33). The random byte of STEP is the source's (log 3). -/
inductive Operation where
  | step
  | tickTimers
  | keyEvent (k : Byte) (pressed : Bool)
  | load (a : Word) (bytes : List Byte)
  | reset
  | snapshot
  | status
deriving DecidableEq, Repr

/-- The outcome type of R33: Ok, or Fault with the recorded code. -/
inductive Result where
  | ok
  | fault (code : BitVec 3)
deriving DecidableEq, Repr

/-- What an operation gives back to the host (R33). -/
inductive Response where
  /-- STEP, KEY_EVENT, LOAD. -/
  | outcome (r : Result)
  /-- TICK_TIMERS: whether the beep fires. -/
  | play (p : Bool)
  /-- RESET: nothing. -/
  | done
  /-- SNAPSHOT: 2048 bytes, row-major. -/
  | screen (bytes : List Byte)
  /-- STATUS: HALTED and FAULT_CAUSE. -/
  | status (halted : Bool) (faultCause : BitVec 3)
deriving DecidableEq, Repr

/-- The outcome of an operation that has run in a core that was not halted: Fault(cause) if it raised one (R109), else Ok. -/
def resultOf (t : State) : Result := if t.halted then .fault t.faultCause else .ok

/-- R118: one countdown of a timer, which never goes below 0. -/
def countdown (b : Byte) : Byte := BitVec.ofNat 8 (b.toNat - 1)

/-- R118, R119: TICK_TIMERS; the second component is `play`. -/
def tickTimers (s : State) : State × Bool :=
  if s.halted then (s, false)
  else ({ s with dt := countdown s.dt, st := countdown s.st }, s.st == 0x01#8)

/-- R122: KEY_EVENT(k, pressed). -/
def keyEvent (s : State) (k : Byte) (pressed : Bool) : State :=
  if s.halted then s
  else if h : k.toNat < nKeys then { s with keys := s.keys.set k.toNat pressed }
  else raiseFault s .badKeyIndex

/-- R47: LOAD(a, bytes), all or nothing. -/
def loadImage (s : State) (a : Word) (bytes : List Byte) : State :=
  if s.halted then s
  else if memSize < a.toNat + bytes.length then raiseFault s .outOfBounds
  else storeBytes s a.toNat bytes

/-- A free outcome as R33's outcome type has it: Ok, or Fault with one of the five causes. -/
def freeResult : Option (Fin 5) → Result
  | none => .ok
  | some c => .fault (BitVec.ofNat 3 (c.val + 1))

/-- The outcome of KEY_EVENT(k, pressed) issued in `s` (R33): read off the state after it, or, where the core was already
halted, the free value of log 7. -/
def keyEventResult (s : State) (k : Byte) (pressed : Bool) : Result :=
  if s.halted then freeResult (Config.haltedKeyEvent s.faultCause k pressed) else resultOf (keyEvent s k pressed)

/-- The outcome of LOAD(a, bytes) issued in `s` (R33), in the same way. -/
def loadResult (s : State) (a : Word) (bytes : List Byte) : Result :=
  if s.halted then freeResult (Config.haltedLoad s.faultCause a bytes) else resultOf (loadImage s a bytes)

/-- R35: SNAPSHOT, byte x + 64*y being 0x01 where pixel (x, y) is lit and 0x00 where it is not. -/
def snapshot (s : State) : List Byte :=
  (List.range (dispW * dispH)).map (fun k => if fbAt s k then 0x01#8 else 0x00#8)

/-- The host's operations on a core (R33, R111): the state after it, and the response. A STEP of a halted core leaves the
state as it is and returns Fault(FAULT_CAUSE). No step answers a refusal (`step_cases`); the arm for it makes the function
total. -/
def operate (s : State) : Operation → State × Response
  | .step =>
    match step s with
    | .next t => (t, .outcome (resultOf t))
    | .fault (.halted c) => (s, .outcome (.fault c))
    | .refused _ => (s, .outcome (resultOf s))
  | .tickTimers => ((tickTimers s).1, .play (tickTimers s).2)
  | .keyEvent k p => (keyEvent s k p, .outcome (keyEventResult s k p))
  | .load a bs => (loadImage s a bs, .outcome (loadResult s a bs))
  | .reset => (resetCore s, .done)
  | .snapshot => (s, .screen (snapshot s))
  | .status => (s, .status s.halted s.faultCause)

/-- A sequence of operations, in the order the host issues them (R34, R120), with the responses. -/
def operateAll (s : State) : List Operation → State × List Response
  | [] => (s, [])
  | o :: os =>
    let (t, r) := operate s o
    let (u, rs) := operateAll t os
    (u, r :: rs)

/-- R128: the core at construction: the state of R36, with the configuration arguments it is constructed with. -/
def construct (c : Config) : State := { State.reset with config := c }

/-- R130: what the host issues after construction or RESET and before the first STEP: the font at FONT_BASE, then the ROM
image at LOAD_ADDR. -/
def bootOps (c : Config) (font rom : List Byte) : List Operation :=
  [.load (BitVec.ofNat 16 c.fontBase.val) font, .load loadAddr rom]

end Sys2Proof.Machine
end

