-- ==== Sys2Proof/Safety.lean ====
section
/-! DEFINITION. The terms in which claims about the core are stated: a core that has not faulted, the parked state, the
invariant, which instruction may write which register, and what a draw, a bulk store and a bulk load leave. -/

namespace Sys2Proof.Machine

/-- The core has not faulted (60_exceptions.md R109); a faulted state is never a normal end of a run (R110). -/
abbrev Safe (s : State) : Prop := s.halted = false

/-- 70_reset_and_hazards.md R132: HALTED = 0 and the word at pc is a jump to itself. -/
def Parked (s : State) : Prop :=
  s.halted = false ∧ ∃ nnn : Addr12, fetch s = some (0x1#4 ++ nnn) ∧ nnn.toNat = s.pc.toNat

/-- R108, R109, R127: HALTED = 1 exactly when FAULT_CAUSE holds one of the codes 1 to 5. -/
abbrev FaultStatusLegal (s : State) : Prop :=
  s.faultCause.toNat ≤ 5 ∧ (s.halted = true ↔ s.faultCause ≠ 0#3)

/-- What every operation keeps: memory in its canonical form, with no byte outside the address space (R37), and a legal
fault status (R108). SP <= 16 (R21) and FONT_BASE + 80 <= 0x200 (D13) hold by the types of the fields. -/
abbrev Inv (s : State) : Prop := Memory.wf s.mem = true ∧ FaultStatusLegal s

/-- 10_state.md R15: the instructions that write VF as a flag. -/
def Instr.writesFlag : Instr → Bool
  | .addReg _ _ | .subReg _ _ | .shr _ _ | .subn _ _ | .shl _ _ | .drw _ _ _ => true
  | _ => false

/-- 10_state.md R16, column "written by": whether an instruction may write register `r` as its named destination. -/
def Instr.hasDestination : Instr → Nibble → Bool
  | .ldByte x _, r | .addByte x _, r | .ldReg x _, r | .orReg x _, r | .andReg x _, r | .xorReg x _, r => r == x
  | .addReg x _, r | .subReg x _, r | .shr x _, r | .subn x _, r | .shl x _, r => r == x
  | .rnd x _, r | .ldVxDt x, r | .ldVxK x, r => r == x
  | .ldVxMem x, r => decide (r.toNat ≤ x.toNat)
  | _, _ => false

/-- R76: what `Write2(r, f)` leaves in V0..VF, by the configuration's VF_WRITE_ORDER. -/
def twoWrites (s : State) (x : Nibble) (r f : Byte) : State :=
  if s.config.vfWriteOrder = .flagLast then { s with v := (s.v.set x.toNat r).set 15 f }
  else { s with v := (s.v.set 15 f).set x.toNat r }

/-- R99: whether bit `c`, counted from the most significant, of row `r` of the sprite at I is 1. -/
def spriteBit (s : State) (r c : Nat) : Prop :=
  ∃ b, memRead s (s.index.toNat + r) = some b ∧ b.getLsbD (7 - c) = true

/-- R99: `t` is `s` with `m` sprite rows XORed into the display from (x0, y0), and VF reporting whether a pixel that was
toggled had been lit; every other pixel and register as in `s`. -/
def DrawnRows (s t : State) (x0 y0 m : Nat) : Prop :=
  (∀ r c, r < m → c < 8 →
    (spriteBit s r c → pixel t (x0 + c) (y0 + r) = !pixel s (x0 + c) (y0 + r)) ∧
    (¬spriteBit s r c → pixel t (x0 + c) (y0 + r) = pixel s (x0 + c) (y0 + r))) ∧
  (∀ px py, px < dispW → py < dispH →
    (∀ r c, r < m → c < 8 → ¬(px = (x0 + c) % dispW ∧ py = (y0 + r) % dispH)) → pixel t px py = pixel s px py) ∧
  ((∃ r c, r < m ∧ c < 8 ∧ spriteBit s r c ∧ pixel s (x0 + c) (y0 + r) = true) → getV t vf = 0x01#8) ∧
  (¬(∃ r c, r < m ∧ c < 8 ∧ spriteBit s r c ∧ pixel s (x0 + c) (y0 + r) = true) → getV t vf = 0x00#8) ∧
  (∀ r, r ≠ vf → getV t r = getV s r)

/-- R92, R93: `bs` stands at `a`, `a + 1`, ... in `t`, and every other byte is as in `s`. -/
def StoredAt (s t : State) (a : Nat) (bs : List Byte) : Prop :=
  (∀ k, k < bs.length → memRead t (a + k) = bs[k]?) ∧
  (∀ c, c < a ∨ a + bs.length ≤ c → memRead t c = memRead s c)

/-- R94: the first `m` registers of `t` are the bytes of `s` from `a`, and the others are as in `s`. -/
def LoadedFrom (s t : State) (a m : Nat) : Prop :=
  ∀ r : Nibble, (r.toNat < m → memRead s (a + r.toNat) = some (getV t r)) ∧ (m ≤ r.toNat → getV t r = getV s r)

/-- 10_state.md R32: two states that differ at most in stack entries at or above SP. -/
def AgreeBelowSp (s t : State) : Prop :=
  t = { s with stack := t.stack } ∧ ∀ k : Fin 16, k.val < s.sp.val → t.stack[k] = s.stack[k]

/-- A sequence of pushes, stopping at the first that fails (R22). -/
def pushAll (s : State) : List Word → Option State
  | [] => some s
  | a :: as =>
    match push s a with
    | some t => pushAll t as
    | none => none

/-- `k` pops, giving the values in the order they come (R23). -/
def popMany (s : State) : Nat → Option (List Word × State)
  | 0 => some ([], s)
  | k + 1 =>
    match pop s with
    | some (a, t) =>
      match popMany t k with
      | some (as, u) => some (a :: as, u)
      | none => none
    | none => none

end Sys2Proof.Machine
end

