-- ==== Sys2Proof/Certificates/Slice0/Obligations.lean ====
section
/-! DEFINITION. The statements about the core, from the numbered rules of spec/. An instruction's statement gives its
encoding and its whole effect: `exec` is entered with pc = A + 2 (R17, R60), so a result that leaves pc alone leaves it at
A + 2. A result written as a record update of `s` says that every other piece of state is as before. Where a fault is
raised, the fields other than HALTED and FAULT_CAUSE are those that the instruction's rule gives; R110 lets a core leave them
otherwise, so no claim about a program may rest on them (log 6). -/

open Sys2Proof Sys2Proof.Machine

/-! ### Encoding -/

/-- R56: a few words, written out bit by bit from the table's patterns. -/
def Obligations.WordsOfEachFamilyDecode : Prop :=
  decodeWord 0b0000000011100000#16 = some .cls ∧
  decodeWord 0b0000000011101110#16 = some .ret ∧
  decodeWord 0b0001101010111100#16 = some (.jp 0xABC#12) ∧
  decodeWord 0b0101000100100000#16 = some (.seReg 0x1#4 0x2#4) ∧
  decodeWord 0b0110101000000101#16 = some (.ldByte 0xA#4 0x05#8) ∧
  decodeWord 0b1000001101001110#16 = some (.shl 0x3#4 0x4#4) ∧
  decodeWord 0b1010001100000000#16 = some (.ldI 0x300#12) ∧
  decodeWord 0b1101000100100101#16 = some (.drw 0x1#4 0x2#4 0x5#4) ∧
  decodeWord 0b1110010010100001#16 = some (.sknp 0x4#4) ∧
  decodeWord 0b1111001001100101#16 = some (.ldVxMem 0x2#4)

/-- R56, R62: the opcode map has 34 rows, no two of which match one word, and decoding a word gives exactly the instruction
of the row it matches. -/
def Obligations.NoTwoOpcodeRowsMatchOneWord : Prop :=
  opcodeTable.length = 34 ∧
  opcodeTable.Pairwise (fun r q => ∀ w, ¬(rowMatches w r = true ∧ rowMatches w q = true)) ∧
  ∀ w i, decodeWord w = some i ↔ ∃ r ∈ opcodeTable, w &&& r.mask = r.pattern ∧ r.build w = i

/-- R57: the words that decode to no instruction are exactly those of the rule's table. -/
def Obligations.IllegalWordsAreExactlyTheTable : Prop :=
  ∀ w : Word,
    decodeWord w = none ↔
      (w.extractLsb' 12 4 = 0x0#4 ∧ w ≠ 0x00E0#16 ∧ w ≠ 0x00EE#16) ∨
      (w.extractLsb' 12 4 = 0x5#4 ∧ w.extractLsb' 0 4 ≠ 0x0#4) ∨
      (w.extractLsb' 12 4 = 0x8#4 ∧
        w.extractLsb' 0 4 ∈ [0x8#4, 0x9#4, 0xA#4, 0xB#4, 0xC#4, 0xD#4, 0xF#4]) ∨
      (w.extractLsb' 12 4 = 0x9#4 ∧ w.extractLsb' 0 4 ≠ 0x0#4) ∨
      (w.extractLsb' 12 4 = 0xE#4 ∧ w.extractLsb' 0 8 ∉ [0x9E#8, 0xA1#8]) ∨
      (w.extractLsb' 12 4 = 0xF#4 ∧
        w.extractLsb' 0 8 ∉ [0x07#8, 0x0A#8, 0x15#8, 0x18#8, 0x1E#8, 0x29#8, 0x33#8, 0x55#8, 0x65#8])

/-- Decode and encode agree: every instruction's word, and its two bytes before any others, decode back to it. -/
def Obligations.DecodeOfEncodeIsTheInstruction : Prop :=
  ∀ (i : Instr) (rest : List Byte),
    decodeWord (encode i) = some i ∧ decodeBytes (encodeBytes i ++ rest) = .ok (i, rest)

/-- Each legal word has one meaning, of which no bit is dropped: encoding what it decodes to gives the word back. -/
def Obligations.EncodeOfDecodeIsTheWord : Prop :=
  ∀ (w : Word) (i : Instr), decodeWord w = some i → encode i = w

/-! ### The fetch-decode-execute cycle -/

/-- R60: when the two bytes at pc form, high byte first, the word of an instruction, STEP is that instruction's effect with
pc advanced by 2. -/
def Obligations.StepRunsTheDecodedInstruction : Prop :=
  ∀ (s : State) (hi lo : Byte) (i : Instr),
    s.halted = false → memRead s s.pc.toNat = some hi → memRead s (s.pc.toNat + 1) = some lo →
    decodeWord (hi ++ lo) = some i →
    step s = exec i { s with pc := s.pc + 2#16 }

/-- R61, R41, R18: below 0x0FFF fetch reads the two bytes at pc, at any alignment, the first being bits 15..8; from 0x0FFF
upwards STEP raises OutOfBounds before pc is advanced. -/
def Obligations.FetchIsBigEndianAndFaultsAtTheTop : Prop :=
  ∀ s : State,
    (s.pc.toNat < 0x0FFF → fetch s = some (Memory.get s.mem s.pc.toNat ++ Memory.get s.mem (s.pc.toNat + 1))) ∧
    (0x0FFF ≤ s.pc.toNat → fetch s = none ∧
      (s.halted = false → step s = .next { s with halted := true, faultCause := 3#3 }))

/-- R57, R110: executing an illegal word raises UnknownOpcode with pc at the word's address + 2, and the operation returns
that fault; no instruction is skipped. -/
def Obligations.IllegalWordRaisesUnknownOpcode : Prop :=
  ∀ (s : State) (w : Word),
    s.halted = false → fetch s = some w → legalWord w = false →
    operate s .step =
      ({ s with pc := s.pc + 2#16, halted := true, faultCause := 4#3 }, .outcome (.fault 4#3))

/-- R111: what every operation does while HALTED = 1; what KEY_EVENT and LOAD return is some outcome of R33's type (free,
log 7). -/
def Obligations.HaltedCoreOnlyAnswersUntilReset : Prop :=
  ∀ s : State, s.halted = true →
    step s = .fault (.halted s.faultCause) ∧
    operate s .step = (s, .outcome (.fault s.faultCause)) ∧
    operate s .tickTimers = (s, .play false) ∧
    (∀ k p, ∃ r, operate s (.keyEvent k p) = (s, .outcome r)) ∧
    (∀ a bs, ∃ r, operate s (.load a bs) = (s, .outcome r)) ∧
    operate s .snapshot = (s, .screen (snapshot s)) ∧
    operate s .status = (s, .status true s.faultCause) ∧
    (operate s .reset).1.halted = false ∧ (operate s .reset).1.faultCause = 0#3

/-! ### Control transfer -/

/-- R67. -/
def Obligations.RetPopsPc : Prop :=
  decodeWord 0x00EE#16 = some .ret ∧
  ∀ s : State,
    (∀ k : Fin 16, s.sp = k.succ → exec .ret s = .next { s with pc := s.stack[k], sp := k.castSucc }) ∧
    (s.sp = 0 → exec .ret s = .next { s with halted := true, faultCause := 2#3 })

/-- R68, R74. -/
def Obligations.JumpsSetPc : Prop :=
  ∀ (nnn : Addr12) (s : State),
    decodeWord (0x1#4 ++ nnn) = some (.jp nnn) ∧
    exec (.jp nnn) s = .next { s with pc := 0x0#4 ++ nnn } ∧
    decodeWord (0xB#4 ++ nnn) = some (.jpV0 nnn) ∧
    exec (.jpV0 nnn) s = .next { s with pc := nnn.setWidth 16 + (getV s 0x0#4).setWidth 16 }

/-- R69. -/
def Obligations.CallPushesTheReturnAddress : Prop :=
  ∀ (nnn : Addr12) (s : State),
    decodeWord (0x2#4 ++ nnn) = some (.call nnn) ∧
    (∀ k : Fin 16, s.sp = k.castSucc →
      exec (.call nnn) s = .next { s with stack := s.stack.set k s.pc, sp := k.succ, pc := 0x0#4 ++ nnn }) ∧
    (s.sp = 16 → exec (.call nnn) s = .next { s with halted := true, faultCause := 1#3 })

/-- R70, R71, with the skip of R66. -/
def Obligations.SkipsOnImmediate : Prop :=
  ∀ (x : Nibble) (nn : Byte) (s : State),
    decodeWord (0x3#4 ++ x ++ nn) = some (.seByte x nn) ∧
    exec (.seByte x nn) s = .next { s with pc := if getV s x = nn then s.pc + 2#16 else s.pc } ∧
    decodeWord (0x4#4 ++ x ++ nn) = some (.sneByte x nn) ∧
    exec (.sneByte x nn) s = .next { s with pc := if getV s x = nn then s.pc else s.pc + 2#16 }

/-- R72, R73, with the skip of R66; with a last digit other than 0 neither word is an instruction. -/
def Obligations.SkipsOnRegisters : Prop :=
  ∀ (x y : Nibble) (s : State),
    decodeWord (0x5#4 ++ x ++ y ++ 0x0#4) = some (.seReg x y) ∧
    exec (.seReg x y) s = .next { s with pc := if getV s x = getV s y then s.pc + 2#16 else s.pc } ∧
    decodeWord (0x9#4 ++ x ++ y ++ 0x0#4) = some (.sneReg x y) ∧
    exec (.sneReg x y) s = .next { s with pc := if getV s x = getV s y then s.pc else s.pc + 2#16 } ∧
    ∀ n, n ≠ 0x0#4 → decodeWord (0x5#4 ++ x ++ y ++ n) = none ∧ decodeWord (0x9#4 ++ x ++ y ++ n) = none

/-! ### ALU and register moves -/

/-- R14: sixteen independent registers, none hard-wired: a write to any of them is read back, and no other one changes. -/
def Obligations.RegistersAreIndependent : Prop :=
  ∀ (s : State) (x r : Nibble) (b : Byte),
    getV (setV s x b) r = (if r = x then b else getV s r) ∧ setV s x b = { s with v := (setV s x b).v }

/-- R77, R78: no flag is written. -/
def Obligations.ImmediateLoadAndAdd : Prop :=
  ∀ (x : Nibble) (nn : Byte) (s : State),
    decodeWord (0x6#4 ++ x ++ nn) = some (.ldByte x nn) ∧
    exec (.ldByte x nn) s = .next { s with v := s.v.set x.toNat nn } ∧
    decodeWord (0x7#4 ++ x ++ nn) = some (.addByte x nn) ∧
    exec (.addByte x nn) s = .next { s with v := s.v.set x.toNat (getV s x + nn) }

/-- R79, R80, R81, R82: copy and the logic operations; no flag is written. -/
def Obligations.CopyAndLogicWriteOnlyTheDestination : Prop :=
  ∀ (x y : Nibble) (s : State),
    decodeWord (0x8#4 ++ x ++ y ++ 0x0#4) = some (.ldReg x y) ∧
    exec (.ldReg x y) s = .next { s with v := s.v.set x.toNat (getV s y) } ∧
    decodeWord (0x8#4 ++ x ++ y ++ 0x1#4) = some (.orReg x y) ∧
    exec (.orReg x y) s = .next { s with v := s.v.set x.toNat (getV s x ||| getV s y) } ∧
    decodeWord (0x8#4 ++ x ++ y ++ 0x2#4) = some (.andReg x y) ∧
    exec (.andReg x y) s = .next { s with v := s.v.set x.toNat (getV s x &&& getV s y) } ∧
    decodeWord (0x8#4 ++ x ++ y ++ 0x3#4) = some (.xorReg x y) ∧
    exec (.xorReg x y) s = .next { s with v := s.v.set x.toNat (getV s x ^^^ getV s y) }

/-- R83, R76: VX + VY mod 256, and VF = 1 exactly when the 9th bit overflows. -/
def Obligations.AddWritesSumAndCarry : Prop :=
  ∀ (x y : Nibble) (s : State),
    decodeWord (0x8#4 ++ x ++ y ++ 0x4#4) = some (.addReg x y) ∧
    exec (.addReg x y) s =
      .next (twoWrites s x (getV s x + getV s y) (if (getV s x).toNat + (getV s y).toNat < 256 then 0#8 else 1#8))

/-- R84, R86, R76: the two subtractions, and VF = 1 exactly when no borrow occurs. -/
def Obligations.SubtractionsWriteDifferenceAndNoBorrow : Prop :=
  ∀ (x y : Nibble) (s : State),
    decodeWord (0x8#4 ++ x ++ y ++ 0x5#4) = some (.subReg x y) ∧
    exec (.subReg x y) s =
      .next (twoWrites s x (getV s x - getV s y) (if getV s x < getV s y then 0#8 else 1#8)) ∧
    decodeWord (0x8#4 ++ x ++ y ++ 0x7#4) = some (.subn x y) ∧
    exec (.subn x y) s =
      .next (twoWrites s x (getV s y - getV s x) (if getV s y < getV s x then 0#8 else 1#8))

/-- R85, R87, R76: the two logical shifts of the register SHIFT_SOURCE names, and VF = the bit shifted out. -/
def Obligations.ShiftsWriteResultAndShiftedOutBit : Prop :=
  ∀ (x y : Nibble) (s : State) (a : Byte),
    a = (if s.config.shiftSource = .vx then getV s x else getV s y) →
    decodeWord (0x8#4 ++ x ++ y ++ 0x6#4) = some (.shr x y) ∧
    exec (.shr x y) s = .next (twoWrites s x (a >>> 1) (a &&& 1#8)) ∧
    decodeWord (0x8#4 ++ x ++ y ++ 0xE#4) = some (.shl x y) ∧
    exec (.shl x y) s = .next (twoWrites s x (a <<< 1) (a >>> 7 &&& 1#8))

/-- R88: exactly one byte is drawn, also when nn = 0, and VX receives it masked. The byte is the free value of log 3: the
statement holds for every stream. -/
def Obligations.RndMasksOneDraw : Prop :=
  ∀ (x : Nibble) (nn : Byte) (s : State),
    decodeWord (0xC#4 ++ x ++ nn) = some (.rnd x nn) ∧
    exec (.rnd x nn) s =
      .next { s with v := s.v.set x.toNat (nn &&& Config.randomByte s.draws), draws := s.draws + 1 } ∧
    ∀ t, exec (.rnd x nn) s = .next t → (nn = 0x00#8 → getV t x = 0x00#8) ∧ getV t x ≤ nn

/-! ### Index register and memory transfers -/

/-- R89, R90, R91: the three writers of I; VF and memory are not touched. -/
def Obligations.IndexRegisterWriters : Prop :=
  ∀ (s : State),
    (∀ nnn : Addr12, decodeWord (0xA#4 ++ nnn) = some (.ldI nnn) ∧
      exec (.ldI nnn) s = .next { s with index := 0x0#4 ++ nnn }) ∧
    ∀ x : Nibble,
      decodeWord (0xF#4 ++ x ++ 0x1E#8) = some (.addI x) ∧
      exec (.addI x) s = .next { s with index := s.index + (getV s x).setWidth 16 } ∧
      decodeWord (0xF#4 ++ x ++ 0x29#8) = some (.ldF x) ∧
      ∃ t, exec (.ldF x) s = .next t ∧ t = { s with index := t.index } ∧
        t.index.toNat = s.config.fontBase.val + (getV s x).toNat % 16 * 5

/-- R92: the three decimal digits of VX at I, I + 1, I + 2, I unchanged; OutOfBounds at the first address >= 4096, with the
bytes before it written. -/
def Obligations.StoreBcdWritesThreeDigits : Prop :=
  ∀ (x : Nibble) (s : State) (h t o : Nat),
    Memory.wf s.mem = true → (getV s x).toNat = 100 * h + 10 * t + o → t < 10 → o < 10 →
    decodeWord (0xF#4 ++ x ++ 0x33#8) = some (.ldB x) ∧
    (s.index.toNat + 2 < 4096 → ∃ u, exec (.ldB x) s = .next u ∧ u = { s with mem := u.mem } ∧
      StoredAt s u s.index.toNat [BitVec.ofNat 8 h, BitVec.ofNat 8 t, BitVec.ofNat 8 o]) ∧
    (4096 ≤ s.index.toNat + 2 → ∃ u, exec (.ldB x) s = .next u ∧
      u = { s with mem := u.mem, halted := true, faultCause := 3#3 } ∧
      StoredAt s u s.index.toNat
        ([BitVec.ofNat 8 h, BitVec.ofNat 8 t, BitVec.ofNat 8 o].take (4096 - s.index.toNat)))

/-- R93: V0..VX stored at I, I + 1, ..., I unchanged; OutOfBounds at the first address >= 4096, with the bytes before it
written. -/
def Obligations.StoreRegistersWritesV0ToVx : Prop :=
  ∀ (x : Nibble) (s : State),
    Memory.wf s.mem = true →
    decodeWord (0xF#4 ++ x ++ 0x55#8) = some (.ldMemVx x) ∧
    (s.index.toNat + x.toNat < 4096 → ∃ u, exec (.ldMemVx x) s = .next u ∧ u = { s with mem := u.mem } ∧
      StoredAt s u s.index.toNat (s.v.toList.take (x.toNat + 1))) ∧
    (4096 ≤ s.index.toNat + x.toNat → ∃ u, exec (.ldMemVx x) s = .next u ∧
      u = { s with mem := u.mem, halted := true, faultCause := 3#3 } ∧
      StoredAt s u s.index.toNat ((s.v.toList.take (x.toNat + 1)).take (4096 - s.index.toNat)))

/-- R94: V0..VX loaded from I, I + 1, ..., I unchanged; OutOfBounds at the first address >= 4096, with the registers before
it loaded. -/
def Obligations.LoadRegistersReadsV0ToVx : Prop :=
  ∀ (x : Nibble) (s : State),
    decodeWord (0xF#4 ++ x ++ 0x65#8) = some (.ldVxMem x) ∧
    (s.index.toNat + x.toNat < 4096 → ∃ u, exec (.ldVxMem x) s = .next u ∧ u = { s with v := u.v } ∧
      LoadedFrom s u s.index.toNat (x.toNat + 1)) ∧
    (4096 ≤ s.index.toNat + x.toNat → ∃ u, exec (.ldVxMem x) s = .next u ∧
      u = { s with v := u.v, halted := true, faultCause := 3#3 } ∧
      LoadedFrom s u s.index.toNat (4096 - s.index.toNat))

/-! ### Display -/

/-- R98, R97: every pixel becomes 0 and nothing else changes. -/
def Obligations.ClsClearsEveryPixel : Prop :=
  decodeWord 0x00E0#16 = some .cls ∧
  ∀ s : State, ∃ t, exec .cls s = .next t ∧ t = { s with fb := t.fb } ∧ ∀ k, k < 2048 → fbAt t k = false

/-- R95, R96: DisplayXor returns the prior pixel, toggles it at the wrapped coordinates and changes nothing else; twice at
one place gives the state back. -/
def Obligations.DisplayXorTogglesOnePixel : Prop :=
  ∀ (s : State) (x y : Nat),
    (displayXor s x y).2 = fbAt s (x % 64 + 64 * (y % 32)) ∧
    (∀ k, k < 2048 → fbAt (displayXor s x y).1 k =
      if k = x % 64 + 64 * (y % 32) then !fbAt s k else fbAt s k) ∧
    (displayXor s x y).1 = { s with fb := (displayXor s x y).1.fb } ∧
    displayXor s (x + 64) (y + 32) = displayXor s x y ∧
    (displayXor (displayXor s x y).1 x y).1 = s ∧
    (displayXor (displayXor s x y).1 x y).2 = !(displayXor s x y).2

/-- R99: DXYN draws n rows from memory at I with XOR and wrap and reports the collision in VF; at the first row whose address
is >= 4096 it raises OutOfBounds, with the rows before it drawn. -/
def Obligations.DrwBlitsTheSprite : Prop :=
  ∀ (x y n : Nibble) (s : State),
    decodeWord (0xD#4 ++ x ++ y ++ n) = some (.drw x y n) ∧
    (n = 0x0#4 ∨ s.index.toNat + n.toNat ≤ 4096 →
      ∃ t, exec (.drw x y n) s = .next t ∧ t = { s with v := t.v, fb := t.fb } ∧
        DrawnRows s t (getV s x).toNat (getV s y).toNat n.toNat) ∧
    (n ≠ 0x0#4 ∧ 4096 < s.index.toNat + n.toNat →
      ∃ t, exec (.drw x y n) s = .next t ∧
        t = { s with v := t.v, fb := t.fb, halted := true, faultCause := 3#3 } ∧
        DrawnRows s t (getV s x).toNat (getV s y).toNat (4096 - s.index.toNat))

/-- R99, corner cases: no row is drawn and no memory read when n = 0, whatever I. -/
def Obligations.DrwOfNoRowsClearsVf : Prop :=
  ∀ (x y : Nibble) (s : State), exec (.drw x y 0x0#4) s = .next { s with v := s.v.set 15 0x00#8 }

/-- R100: distinct places of one sprite are distinct pixels; so each toggle of one draw returns the value from before the
draw, and the order of the toggles does not matter. -/
def Obligations.OneDrawNeverTogglesAPixelTwice : Prop :=
  ∀ (s : State) (x y c r c' r' : Nat), c < 8 → c' < 8 → r < 15 → r' < 15 → ¬(c = c' ∧ r = r') →
    ¬(wrapCol (x + c) = wrapCol (x + c') ∧ wrapRow (y + r) = wrapRow (y + r')) ∧
    (displayXor (displayXor s (x + c) (y + r)).1 (x + c') (y + r')).2 = (displayXor s (x + c') (y + r')).2 ∧
    (displayXor (displayXor s (x + c) (y + r)).1 (x + c') (y + r')).1 =
      (displayXor (displayXor s (x + c') (y + r')).1 (x + c) (y + r)).1

/-- Drawing one sprite twice from registers other than VF gives the display back, and the second draw reports a collision
exactly when a set bit of the sprite stands on a pixel that had been dark before the first. -/
def Obligations.DrawingTwiceRestoresTheDisplay : Prop :=
  ∀ (x y n : Nibble) (s t u : State),
    x ≠ vf → y ≠ vf → n = 0x0#4 ∨ s.index.toNat + n.toNat ≤ 4096 →
    exec (.drw x y n) s = .next t → exec (.drw x y n) t = .next u →
    u.fb = s.fb ∧
    (getV u vf = 0x01#8 ↔
      ∃ r c, r < n.toNat ∧ c < 8 ∧ spriteBit s r c ∧ pixel s ((getV s x).toNat + c) ((getV s y).toNat + r) = false)

/-! ### Keypad and timers -/

/-- R101, R102: the key skips, and BadKeyIndex when VX >= 16. -/
def Obligations.KeySkips : Prop :=
  ∀ (x : Nibble) (s : State),
    decodeWord (0xE#4 ++ x ++ 0x9E#8) = some (.skp x) ∧
    decodeWord (0xE#4 ++ x ++ 0xA1#8) = some (.sknp x) ∧
    (∀ k : Fin 16, (getV s x).toNat = k.val →
      exec (.skp x) s = .next { s with pc := if s.keys[k] = true then s.pc + 2#16 else s.pc } ∧
      exec (.sknp x) s = .next { s with pc := if s.keys[k] = true then s.pc else s.pc + 2#16 }) ∧
    (16 ≤ (getV s x).toNat →
      exec (.skp x) s = .next { s with halted := true, faultCause := 5#3 } ∧
      exec (.sknp x) s = .next { s with halted := true, faultCause := 5#3 })

/-- R103, R29: with a key pressed, the lowest-indexed one is latched and pc stays advanced; with none, pc goes back by 2 and
nothing else changes. -/
def Obligations.WaitForKeyLatchesTheLowestKey : Prop :=
  ∀ (x : Nibble) (s : State),
    decodeWord (0xF#4 ++ x ++ 0x0A#8) = some (.ldVxK x) ∧
    (∀ k : Fin 16, s.keys[k] = true → (∀ j : Fin 16, j < k → s.keys[j] = false) →
      exec (.ldVxK x) s = .next { s with v := s.v.set x.toNat (BitVec.ofNat 8 k.val) }) ∧
    ((∀ j : Fin 16, s.keys[j] = false) → exec (.ldVxK x) s = .next { s with pc := s.pc - 2#16 })

/-- R103, R136: a core waiting at FX0A with no key pressed is left by a STEP exactly as it was, however often it is
issued. -/
def Obligations.WaitingForAKeyChangesNothing : Prop :=
  ∀ (s : State) (x : Nibble) (k : Nat),
    s.halted = false → fetch s = some (0xF#4 ++ x ++ 0x0A#8) → (∀ j : Fin 16, s.keys[j] = false) →
    (operateAll s (List.replicate k .step)).1 = s

/-- R104, R105, R106. -/
def Obligations.TimerMoves : Prop :=
  ∀ (x : Nibble) (s : State),
    decodeWord (0xF#4 ++ x ++ 0x07#8) = some (.ldVxDt x) ∧
    exec (.ldVxDt x) s = .next { s with v := s.v.set x.toNat s.dt } ∧
    decodeWord (0xF#4 ++ x ++ 0x15#8) = some (.ldDtVx x) ∧
    exec (.ldDtVx x) s = .next { s with dt := getV s x } ∧
    decodeWord (0xF#4 ++ x ++ 0x18#8) = some (.ldStVx x) ∧
    exec (.ldStVx x) s = .next { s with st := getV s x }

/-! ### Rules of the whole instruction set -/

/-- R114, R107: every instruction answers a next state, and leaves the fault status alone or raises one of the causes that
R107 gives it, under its condition. -/
def Obligations.InstructionsRaiseOnlyTheirFaults : Prop :=
  ∀ (i : Instr) (s : State), ∃ t, exec i s = .next t ∧
    ((t.halted = s.halted ∧ t.faultCause = s.faultCause) ∨
     (t.halted = true ∧
      ((t.faultCause = 1#3 ∧ s.sp = 16 ∧ ∃ nnn, i = .call nnn) ∨
       (t.faultCause = 2#3 ∧ s.sp = 0 ∧ i = .ret) ∨
       (t.faultCause = 3#3 ∧ ∃ x y n,
          (i = .drw x y n ∧ 0 < n.toNat ∧ 4096 < s.index.toNat + n.toNat) ∨
          (i = .ldB x ∧ 4096 ≤ s.index.toNat + 2) ∨
          ((i = .ldMemVx x ∨ i = .ldVxMem x) ∧ 4096 ≤ s.index.toNat + x.toNat)) ∨
       (t.faultCause = 5#3 ∧ ∃ x, (i = .skp x ∨ i = .sknp x) ∧ 16 ≤ (getV s x).toNat))))

/-- R15, R16: a register changes only as the named destination of the instruction, or VF as the flag of the six instructions
that write one; and where VF is not also the destination, those six leave 0 or 1 in it. -/
def Obligations.RegistersChangeOnlyAsDestinationOrFlag : Prop :=
  ∀ (i : Instr) (s t : State) (r : Nibble), exec i s = .next t →
    (getV t r ≠ getV s r → Instr.hasDestination i r = true ∨ (r = vf ∧ Instr.writesFlag i = true)) ∧
    (Instr.writesFlag i = true → Instr.hasDestination i vf = false → getV t vf = 0x00#8 ∨ getV t vf = 0x01#8)

/-- R43, R39: a byte of memory changes only by FX33, at I to I + 2, or FX55, at I to I + x. -/
def Obligations.MemoryChangesOnlyByStores : Prop :=
  ∀ (i : Instr) (s t : State) (a : Nat), Memory.wf s.mem = true → exec i s = .next t →
    memRead t a ≠ memRead s a →
    ∃ x, (i = .ldB x ∧ s.index.toNat ≤ a ∧ a ≤ s.index.toNat + 2) ∨
      (i = .ldMemVx x ∧ s.index.toNat ≤ a ∧ a ≤ s.index.toNat + x.toNat)

/-- R20, R24, R26, R27, R21, R31, R123: each other piece of state is written only by the instructions that name it; the
keypad and the configuration by none. -/
def Obligations.OtherStateHasOnlyItsWriters : Prop :=
  ∀ (i : Instr) (s t : State), exec i s = .next t →
    (t.index ≠ s.index → ∃ nnn x, i = .ldI nnn ∨ i = .addI x ∨ i = .ldF x) ∧
    (t.dt ≠ s.dt → ∃ x, i = .ldDtVx x) ∧
    (t.st ≠ s.st → ∃ x, i = .ldStVx x) ∧
    (t.fb ≠ s.fb → i = .cls ∨ ∃ x y n, i = .drw x y n) ∧
    (t.sp ≠ s.sp → i = .ret ∨ ∃ nnn, i = .call nnn) ∧
    (t.stack ≠ s.stack → ∃ nnn, i = .call nnn) ∧
    t.keys = s.keys ∧ t.config = s.config ∧
    t.draws = s.draws + (if ∃ x nn, i = .rnd x nn then 1 else 0)

/-- R63: VF_WRITE_ORDER matters only to an instruction that may write VF as its destination: with the other value in the
configuration, every other instruction does the same, given the same draws (log 3: that two states with one count of draws
draw the same byte is the model's choice, on which RND's case rests). The forms the hypothesis leaves out that write no flag
are in ImmediateLoadAndAdd, CopyAndLogicWriteOnlyTheDestination, RndMasksOneDraw, LoadRegistersReadsV0ToVx,
WaitForKeyLatchesTheLowestKey and TimerMoves. -/
def Obligations.WriteOrderMattersOnlyForVf : Prop :=
  ∀ (i : Instr) (s t : State) (o : VfWriteOrder), Instr.hasDestination i vf = false → exec i s = .next t →
    exec i { s with config := { s.config with vfWriteOrder := o } } =
      .next { t with config := { s.config with vfWriteOrder := o } }

/-- R24, R32: no instruction reads ST: with any other value in it, every instruction does the same, given the same draws
(log 3: that both runs draw the same byte in RND is the model's choice). -/
def Obligations.NoInstructionReadsTheSoundTimer : Prop :=
  ∀ (i : Instr) (s t : State) (b : Byte), exec i s = .next t →
    exec i { s with st := b } = .next { t with st := if ∃ x, i = .ldStVx x then t.st else b }

/-- R32: the display is observed only by DXYN, and there only through VF, given the same draws (log 3: that both runs draw
the same byte in RND is the model's choice). -/
def Obligations.DisplayIsSeenOnlyThroughTheCollisionFlag : Prop :=
  ∀ (i : Instr) (s t : State) (f : FrameBuffer), exec i s = .next t →
    ∃ t', exec i { s with fb := f } = .next t' ∧
      ((¬∃ x y n, i = .drw x y n) → t' = { t with fb := t'.fb }) ∧
      t' = { t with fb := t'.fb, v := t'.v } ∧ ∀ r, r ≠ vf → getV t' r = getV t r

/-- R27, R32: the keypad is read only by EX9E, EXA1 and FX0A, given the same draws (log 3: that both runs draw the same byte
in RND is the model's choice). -/
def Obligations.KeypadIsReadOnlyByKeyInstructions : Prop :=
  ∀ (i : Instr) (s t : State) (k : Vector Bool 16),
    (∀ x, i ≠ .skp x ∧ i ≠ .sknp x ∧ i ≠ .ldVxK x) → exec i s = .next t →
    exec i { s with keys := k } = .next { t with keys := k }

/-- R32, R23: a stack entry at or above SP is observed by nothing: two cores that differ only there give the same responses
to every sequence of operations, and stay so, given the same draws (log 3) and the same free outcomes of KEY_EVENT and LOAD
while halted (log 7): that both runs draw the same bytes and get the same outcomes is the model's choice. -/
def Obligations.StaleStackEntriesAreUnobservable : Prop :=
  ∀ (ops : List Operation) (s t : State), AgreeBelowSp s t →
    (operateAll t ops).2 = (operateAll s ops).2 ∧ AgreeBelowSp (operateAll s ops).1 (operateAll t ops).1

/-! ### Stack and memory -/

/-- R22, R23: up to sixteen pushes succeed, popping them gives the values in reverse order, and a push at capacity fails. -/
def Obligations.StackIsLastInFirstOut : Prop :=
  ∀ (s : State) (ws : List Word), s.sp.val + ws.length ≤ 16 →
    ∃ t, pushAll s ws = some t ∧ t.sp.val = s.sp.val + ws.length ∧
      (∃ u, popMany t ws.length = some (ws.reverse, u) ∧ u.sp = s.sp ∧
        ∀ k : Fin 16, k.val < s.sp.val → u.stack[k] = s.stack[k]) ∧
      (s.sp.val + ws.length = 16 → ∀ a, push t a = none)

/-- R38, R39: below 4096 a write succeeds, changes memory only, is read back, and leaves every other byte alone; at or above
4096 both read and write raise. -/
def Obligations.ReadAfterWrite : Prop :=
  ∀ (s : State) (a : Nat) (b : Byte), Memory.wf s.mem = true →
    (a < 4096 → ∃ t, memWrite s a b = some t ∧ t = { s with mem := t.mem } ∧ Memory.wf t.mem = true ∧
      memRead t a = some b ∧ ∀ c, c ≠ a → memRead t c = memRead s c) ∧
    (4096 ≤ a → memWrite s a b = none ∧ memRead s a = none)

/-- R51, R41: a byte written at pc or at pc + 1 is the high or the low half of the next word fetched. -/
def Obligations.NextFetchSeesWrittenBytes : Prop :=
  ∀ (s t u : State) (b c : Byte), Memory.wf s.mem = true →
    memWrite s s.pc.toNat b = some t → memWrite t (s.pc.toNat + 1) c = some u →
    fetch u = some (b ++ c) ∧ (∀ w, fetch s = some w → fetch t = some (b ++ w.extractLsb' 0 8))

/-- R132: a STEP of a parked core leaves all state unchanged. -/
def Obligations.ParkedCoreStaysParked : Prop :=
  ∀ s : State, Parked s → step s = .next s

/-! ### Operations of the host -/

/-- R118: TICK_TIMERS. -/
def Obligations.TickTimersCountsDown : Prop :=
  ∀ s : State,
    (s.halted = false →
      operate s .tickTimers =
        ({ s with dt := if s.dt = 0#8 then 0#8 else s.dt - 1#8, st := if s.st = 0#8 then 0#8 else s.st - 1#8 },
         .play (decide (s.st = 1#8)))) ∧
    (s.halted = true → operate s .tickTimers = (s, .play false))

/-- R119, R118: of any number of TICK_TIMERS in a row, the one that finds ST = 1 beeps and no other; DT and ST end at 0 or at
their value less the number of ticks. -/
def Obligations.OneBeepPerCrossing : Prop :=
  ∀ (s : State) (k : Nat), s.halted = false →
    operateAll s (List.replicate k .tickTimers) =
      ({ s with dt := BitVec.ofNat 8 (s.dt.toNat - k), st := BitVec.ofNat 8 (s.st.toNat - k) },
       (List.range k).map (fun j => .play (decide (s.st.toNat = j + 1))))

/-- R122: KEY_EVENT. -/
def Obligations.KeyEventSetsOneKey : Prop :=
  ∀ (s : State) (k : Byte) (p : Bool),
    (∀ j : Fin 16, s.halted = false → k.toNat = j.val →
      operate s (.keyEvent k p) = ({ s with keys := s.keys.set j p }, .outcome .ok)) ∧
    (s.halted = false → 16 ≤ k.toNat →
      operate s (.keyEvent k p) = ({ s with halted := true, faultCause := 5#3 }, .outcome (.fault 5#3))) ∧
    (s.halted = true → ∃ r, operate s (.keyEvent k p) = (s, .outcome r))

/-- R47: LOAD writes all bytes and nothing else, or faults and writes none; halted, it does nothing. -/
def Obligations.LoadIsAllOrNothing : Prop :=
  ∀ (s : State) (a : Word) (bs : List Byte), Memory.wf s.mem = true →
    (s.halted = false → a.toNat + bs.length ≤ 4096 →
      ∃ t, operate s (.load a bs) = (t, .outcome .ok) ∧ t = { s with mem := t.mem } ∧ StoredAt s t a.toNat bs) ∧
    (s.halted = false → 4096 < a.toNat + bs.length →
      operate s (.load a bs) = ({ s with halted := true, faultCause := 3#3 }, .outcome (.fault 3#3))) ∧
    (s.halted = true → ∃ r, operate s (.load a bs) = (s, .outcome r))

/-- R127, R36: RESET, in any state, gives the reset table and leaves the configuration and the random source alone. -/
def Obligations.ResetGivesTheResetTable : Prop :=
  ∀ s : State,
    ∃ t, operate s .reset = (t, .done) ∧
      (∀ r, getV t r = 0x00#8) ∧ t.pc = 0x0200#16 ∧ t.index = 0x0000#16 ∧ t.sp = 0 ∧
      (∀ k : Fin 16, t.stack[k] = 0x0000#16) ∧ t.dt = 0x00#8 ∧ t.st = 0x00#8 ∧
      (∀ a, a < 4096 → memRead t a = some 0x00#8) ∧ (∀ k, k < 2048 → fbAt t k = false) ∧
      (∀ k : Fin 16, t.keys[k] = false) ∧ t.halted = false ∧ t.faultCause = 0#3 ∧
      t.config = s.config ∧ t.draws = s.draws

/-- R36: the values the spec gives for the state after reset (State.reset; the configuration and the count of draws are the
model's own, logs 2 and 3, and are not stated here). -/
def Obligations.StateAfterResetIsTheTable : Prop :=
  (∀ r, getV State.reset r = 0x00#8) ∧ State.reset.pc = 0x0200#16 ∧ State.reset.index = 0x0000#16 ∧
  State.reset.sp = 0 ∧ (∀ k : Fin 16, State.reset.stack[k] = 0x0000#16) ∧
  State.reset.dt = 0x00#8 ∧ State.reset.st = 0x00#8 ∧
  (∀ a, a < 4096 → memRead State.reset a = some 0x00#8) ∧ (∀ k, k < 2048 → fbAt State.reset k = false) ∧
  (∀ k : Fin 16, State.reset.keys[k] = false) ∧ State.reset.halted = false ∧ State.reset.faultCause = 0#3

/-- R130, R131, R45: booting a newly constructed core with an 80-byte font and a ROM of at most 3584 bytes puts each at its
place and changes nothing else, in either order of the two loads; a larger ROM faults OutOfBounds and is not loaded: memory
then holds the font alone. -/
def Obligations.BootPlacesFontAndRom : Prop :=
  ∀ (c : Config) (font rom : List Byte), font.length = 80 →
    (rom.length ≤ 3584 →
      ∃ t, operateAll (construct c) (bootOps c font rom) = (t, [.outcome .ok, .outcome .ok]) ∧
        operateAll (construct c) (bootOps c font rom).reverse = (t, [.outcome .ok, .outcome .ok]) ∧
        t = { construct c with mem := t.mem } ∧
        (∀ k, k < 80 → memRead t (c.fontBase.val + k) = font[k]?) ∧
        (∀ k, k < rom.length → memRead t (0x200 + k) = rom[k]?) ∧
        ∀ a, a < 4096 → a < c.fontBase.val ∨ c.fontBase.val + 80 ≤ a → a < 0x200 ∨ 0x200 + rom.length ≤ a →
          memRead t a = some 0x00#8) ∧
    (3584 < rom.length →
      ∃ t, operateAll (construct c) (bootOps c font rom) = (t, [.outcome .ok, .outcome (.fault 3#3)]) ∧
        t = { construct c with mem := t.mem, halted := true, faultCause := 3#3 } ∧
        (∀ k, k < 80 → memRead t (c.fontBase.val + k) = font[k]?) ∧
        ∀ a, a < 4096 → a < c.fontBase.val ∨ c.fontBase.val + 80 ≤ a → memRead t a = some 0x00#8)

/-- R35: SNAPSHOT in every state. -/
def Obligations.SnapshotIsTheDisplay : Prop :=
  ∀ s : State, ∃ bytes, operate s .snapshot = (s, .screen bytes) ∧ bytes.length = 2048 ∧
    ∀ x y, x < 64 → y < 32 → bytes[x + 64 * y]? = some (if pixel s x y then 0x01#8 else 0x00#8)

/-! ### Invariants -/

/-- The invariant holds after reset. -/
def Obligations.InvariantHoldsAtReset : Prop := Inv State.reset

/-- Every STEP keeps it, from every state that meets it: memory stays in canonical form with no byte at or above 0x1000
(R37, R39), FAULT_CAUSE never takes 6 or 7, and HALTED = 1 exactly when it records a cause (R108, R109). -/
def Obligations.StepKeepsTheInvariant : Prop :=
  ∀ s t : State, Inv s → step s = .next t → Inv t

/-- Every sequence of the host's operations keeps it (R34, R120), and keeps the configuration (R31). -/
def Obligations.OperationsKeepTheInvariant : Prop :=
  ∀ (ops : List Operation) (s : State), Inv s →
    Inv (operateAll s ops).1 ∧ (operateAll s ops).1.config = s.config

/-- R113, R111: once a core has faulted, no sequence of operations without a RESET changes anything in it. -/
def Obligations.OnlyResetLeavesTheHalt : Prop :=
  ∀ (ops : List Operation) (s : State), s.halted = true → .reset ∉ ops → (operateAll s ops).1 = s
end

