-- ==== Sys2Proof/Laws/Decode.lean ====
section
/-! SUPPORT. Words and their fields: what each mask of the opcode map selects, a word rebuilt from its fields, and the fields
of a word written out from them. -/

namespace Sys2Proof

/-! ### Masks -/

/-- Two concatenations of equal widths are equal exactly when their parts are. -/
theorem append_eq_append_iff {m n : Nat} (a c : BitVec m) (b d : BitVec n) : a ++ b = c ++ d ↔ a = c ∧ b = d := by
  constructor
  · intro h
    refine ⟨?_, ?_⟩
    · have := congrArg (fun v => BitVec.extractLsb' n m v) h
      simpa [BitVec.extractLsb'_append_eq_left] using this
    · have := congrArg (fun v => BitVec.extractLsb' 0 n v) h
      simpa [BitVec.extractLsb'_append_eq_right] using this
  · rintro ⟨rfl, rfl⟩; rfl

theorem and_F000 (w : Word) : w &&& 0xF000#16 = w.extractLsb' 12 4 ++ 0#12 := by
  apply BitVec.eq_of_getLsbD_eq
  intro i hi
  rw [BitVec.getLsbD_and, BitVec.getLsbD_append]
  interval_cases i <;> simp

theorem and_F00F (w : Word) : w &&& 0xF00F#16 = w.extractLsb' 12 4 ++ (0#8 ++ w.extractLsb' 0 4) := by
  apply BitVec.eq_of_getLsbD_eq
  intro i hi
  rw [BitVec.getLsbD_and, BitVec.getLsbD_append, BitVec.getLsbD_append]
  interval_cases i <;> simp

theorem and_F0FF (w : Word) : w &&& 0xF0FF#16 = w.extractLsb' 12 4 ++ (0#4 ++ w.extractLsb' 0 8) := by
  apply BitVec.eq_of_getLsbD_eq
  intro i hi
  rw [BitVec.getLsbD_and, BitVec.getLsbD_append, BitVec.getLsbD_append]
  interval_cases i <;> simp

theorem and_FFFF (w : Word) : w &&& 0xFFFF#16 = w := BitVec.and_allOnes

/-- A row with mask 0xF000 matches by bits 15..12 alone. -/
theorem matches_F000 (w : Word) (c : Nibble) : w &&& 0xF000#16 = c ++ 0#12 ↔ w.extractLsb' 12 4 = c := by
  rw [and_F000, append_eq_append_iff]
  simp

/-- A row with mask 0xF00F matches by bits 15..12 and 3..0. -/
theorem matches_F00F (w : Word) (c d : Nibble) :
    w &&& 0xF00F#16 = c ++ (0#8 ++ d) ↔ w.extractLsb' 12 4 = c ∧ fieldN w = d := by
  rw [and_F00F, append_eq_append_iff, append_eq_append_iff]
  simp [fieldN]

/-- A row with mask 0xF0FF matches by bits 15..12 and 7..0. -/
theorem matches_F0FF (w : Word) (c : Nibble) (d : Byte) :
    w &&& 0xF0FF#16 = c ++ (0#4 ++ d) ↔ w.extractLsb' 12 4 = c ∧ fieldNN w = d := by
  rw [and_F0FF, append_eq_append_iff, append_eq_append_iff]
  simp [fieldNN]

/-! ### A word rebuilt from its fields -/

theorem word_eq_op_x_y_n (w : Word) : w.extractLsb' 12 4 ++ fieldX w ++ fieldY w ++ fieldN w = w := by
  apply BitVec.eq_of_getLsbD_eq; intro i hi
  rw [BitVec.getLsbD_append, BitVec.getLsbD_append, BitVec.getLsbD_append]
  simp only [fieldX, fieldY, fieldN, BitVec.getLsbD_extractLsb']
  interval_cases i <;> simp

theorem word_eq_op_x_nn (w : Word) : w.extractLsb' 12 4 ++ fieldX w ++ fieldNN w = w := by
  apply BitVec.eq_of_getLsbD_eq; intro i hi
  rw [BitVec.getLsbD_append, BitVec.getLsbD_append]
  simp only [fieldX, fieldNN, BitVec.getLsbD_extractLsb']
  interval_cases i <;> simp

theorem word_eq_op_nnn (w : Word) : w.extractLsb' 12 4 ++ fieldNNN w = w := by
  apply BitVec.eq_of_getLsbD_eq; intro i hi
  rw [BitVec.getLsbD_append]
  simp only [fieldNNN, BitVec.getLsbD_extractLsb']
  interval_cases i <;> simp

theorem wordOfBytes_extract (w : Word) : wordOfBytes (w.extractLsb' 8 8) (w.extractLsb' 0 8) = w := by
  apply BitVec.eq_of_getLsbD_eq; intro i hi
  rw [wordOfBytes, BitVec.getLsbD_append]
  simp only [BitVec.getLsbD_extractLsb']
  interval_cases i <;> simp

/-! ### The fields of a word written out from them -/

variable (c x y n : Nibble) (nn : Byte) (nnn : Addr12)

theorem op_of_op_x_y_n : ((c ++ x ++ y ++ n : BitVec 16)).extractLsb' 12 4 = c := by
  apply BitVec.eq_of_getLsbD_eq; intro i hi
  simp only [BitVec.getLsbD_extractLsb', BitVec.getLsbD_append]
  interval_cases i <;> simp

theorem fieldX_of_op_x_y_n : fieldX (c ++ x ++ y ++ n) = x := by
  apply BitVec.eq_of_getLsbD_eq; intro i hi
  simp only [fieldX, BitVec.getLsbD_extractLsb', BitVec.getLsbD_append]
  interval_cases i <;> simp

theorem fieldY_of_op_x_y_n : fieldY (c ++ x ++ y ++ n) = y := by
  apply BitVec.eq_of_getLsbD_eq; intro i hi
  simp only [fieldY, BitVec.getLsbD_extractLsb', BitVec.getLsbD_append]
  interval_cases i <;> simp

theorem fieldN_of_op_x_y_n : fieldN (c ++ x ++ y ++ n) = n := by
  apply BitVec.eq_of_getLsbD_eq; intro i hi
  simp only [fieldN, BitVec.getLsbD_extractLsb', BitVec.getLsbD_append]
  interval_cases i <;> simp

theorem op_of_op_x_nn : ((c ++ x ++ nn : BitVec 16)).extractLsb' 12 4 = c := by
  apply BitVec.eq_of_getLsbD_eq; intro i hi
  simp only [BitVec.getLsbD_extractLsb', BitVec.getLsbD_append]
  interval_cases i <;> simp

theorem fieldX_of_op_x_nn : fieldX (c ++ x ++ nn) = x := by
  apply BitVec.eq_of_getLsbD_eq; intro i hi
  simp only [fieldX, BitVec.getLsbD_extractLsb', BitVec.getLsbD_append]
  interval_cases i <;> simp

theorem fieldNN_of_op_x_nn : fieldNN (c ++ x ++ nn) = nn := by
  apply BitVec.eq_of_getLsbD_eq; intro i hi
  simp only [fieldNN, BitVec.getLsbD_extractLsb', BitVec.getLsbD_append]
  interval_cases i <;> simp

theorem op_of_op_nnn : ((c ++ nnn : BitVec 16)).extractLsb' 12 4 = c := by
  apply BitVec.eq_of_getLsbD_eq; intro i hi
  simp only [BitVec.getLsbD_extractLsb', BitVec.getLsbD_append]
  interval_cases i <;> simp

theorem fieldNNN_of_op_nnn : fieldNNN (c ++ nnn) = nnn := by
  apply BitVec.eq_of_getLsbD_eq; intro i hi
  simp only [fieldNNN, BitVec.getLsbD_extractLsb', BitVec.getLsbD_append]
  interval_cases i <;> simp

end Sys2Proof
end

