-- ==== Sys2Proof/Laws/State.lean ====
section
/-! SUPPORT. One lemma per field per update of the state, so that no later proof unfolds a record update. -/

namespace Sys2Proof.Machine

variable (s : State)

/-! ### `setV` -/

@[simp] theorem setV_v (i : Nibble) (b : Byte) : (setV s i b).v = s.v.set i.toNat b := rfl
@[simp] theorem setV_pc (i : Nibble) (b : Byte) : (setV s i b).pc = s.pc := rfl
@[simp] theorem setV_index (i : Nibble) (b : Byte) : (setV s i b).index = s.index := rfl
@[simp] theorem setV_stack (i : Nibble) (b : Byte) : (setV s i b).stack = s.stack := rfl
@[simp] theorem setV_sp (i : Nibble) (b : Byte) : (setV s i b).sp = s.sp := rfl
@[simp] theorem setV_dt (i : Nibble) (b : Byte) : (setV s i b).dt = s.dt := rfl
@[simp] theorem setV_st (i : Nibble) (b : Byte) : (setV s i b).st = s.st := rfl
@[simp] theorem setV_mem (i : Nibble) (b : Byte) : (setV s i b).mem = s.mem := rfl
@[simp] theorem setV_fb (i : Nibble) (b : Byte) : (setV s i b).fb = s.fb := rfl
@[simp] theorem setV_keys (i : Nibble) (b : Byte) : (setV s i b).keys = s.keys := rfl
@[simp] theorem setV_halted (i : Nibble) (b : Byte) : (setV s i b).halted = s.halted := rfl
@[simp] theorem setV_faultCause (i : Nibble) (b : Byte) : (setV s i b).faultCause = s.faultCause := rfl
@[simp] theorem setV_config (i : Nibble) (b : Byte) : (setV s i b).config = s.config := rfl
@[simp] theorem setV_draws (i : Nibble) (b : Byte) : (setV s i b).draws = s.draws := rfl

/-! ### `setPc` -/

@[simp] theorem setPc_v (a : Word) : (setPc s a).v = s.v := rfl
@[simp] theorem setPc_pc (a : Word) : (setPc s a).pc = a := rfl
@[simp] theorem setPc_index (a : Word) : (setPc s a).index = s.index := rfl
@[simp] theorem setPc_stack (a : Word) : (setPc s a).stack = s.stack := rfl
@[simp] theorem setPc_sp (a : Word) : (setPc s a).sp = s.sp := rfl
@[simp] theorem setPc_dt (a : Word) : (setPc s a).dt = s.dt := rfl
@[simp] theorem setPc_st (a : Word) : (setPc s a).st = s.st := rfl
@[simp] theorem setPc_mem (a : Word) : (setPc s a).mem = s.mem := rfl
@[simp] theorem setPc_fb (a : Word) : (setPc s a).fb = s.fb := rfl
@[simp] theorem setPc_keys (a : Word) : (setPc s a).keys = s.keys := rfl
@[simp] theorem setPc_halted (a : Word) : (setPc s a).halted = s.halted := rfl
@[simp] theorem setPc_faultCause (a : Word) : (setPc s a).faultCause = s.faultCause := rfl
@[simp] theorem setPc_config (a : Word) : (setPc s a).config = s.config := rfl
@[simp] theorem setPc_draws (a : Word) : (setPc s a).draws = s.draws := rfl

/-! ### `setIndex` -/

@[simp] theorem setIndex_v (a : Word) : (setIndex s a).v = s.v := rfl
@[simp] theorem setIndex_pc (a : Word) : (setIndex s a).pc = s.pc := rfl
@[simp] theorem setIndex_index (a : Word) : (setIndex s a).index = a := rfl
@[simp] theorem setIndex_stack (a : Word) : (setIndex s a).stack = s.stack := rfl
@[simp] theorem setIndex_sp (a : Word) : (setIndex s a).sp = s.sp := rfl
@[simp] theorem setIndex_dt (a : Word) : (setIndex s a).dt = s.dt := rfl
@[simp] theorem setIndex_st (a : Word) : (setIndex s a).st = s.st := rfl
@[simp] theorem setIndex_mem (a : Word) : (setIndex s a).mem = s.mem := rfl
@[simp] theorem setIndex_fb (a : Word) : (setIndex s a).fb = s.fb := rfl
@[simp] theorem setIndex_keys (a : Word) : (setIndex s a).keys = s.keys := rfl
@[simp] theorem setIndex_halted (a : Word) : (setIndex s a).halted = s.halted := rfl
@[simp] theorem setIndex_faultCause (a : Word) : (setIndex s a).faultCause = s.faultCause := rfl
@[simp] theorem setIndex_config (a : Word) : (setIndex s a).config = s.config := rfl
@[simp] theorem setIndex_draws (a : Word) : (setIndex s a).draws = s.draws := rfl

/-! ### `setDt` -/

@[simp] theorem setDt_v (b : Byte) : (setDt s b).v = s.v := rfl
@[simp] theorem setDt_pc (b : Byte) : (setDt s b).pc = s.pc := rfl
@[simp] theorem setDt_index (b : Byte) : (setDt s b).index = s.index := rfl
@[simp] theorem setDt_stack (b : Byte) : (setDt s b).stack = s.stack := rfl
@[simp] theorem setDt_sp (b : Byte) : (setDt s b).sp = s.sp := rfl
@[simp] theorem setDt_dt (b : Byte) : (setDt s b).dt = b := rfl
@[simp] theorem setDt_st (b : Byte) : (setDt s b).st = s.st := rfl
@[simp] theorem setDt_mem (b : Byte) : (setDt s b).mem = s.mem := rfl
@[simp] theorem setDt_fb (b : Byte) : (setDt s b).fb = s.fb := rfl
@[simp] theorem setDt_keys (b : Byte) : (setDt s b).keys = s.keys := rfl
@[simp] theorem setDt_halted (b : Byte) : (setDt s b).halted = s.halted := rfl
@[simp] theorem setDt_faultCause (b : Byte) : (setDt s b).faultCause = s.faultCause := rfl
@[simp] theorem setDt_config (b : Byte) : (setDt s b).config = s.config := rfl
@[simp] theorem setDt_draws (b : Byte) : (setDt s b).draws = s.draws := rfl

/-! ### `setSt` -/

@[simp] theorem setSt_v (b : Byte) : (setSt s b).v = s.v := rfl
@[simp] theorem setSt_pc (b : Byte) : (setSt s b).pc = s.pc := rfl
@[simp] theorem setSt_index (b : Byte) : (setSt s b).index = s.index := rfl
@[simp] theorem setSt_stack (b : Byte) : (setSt s b).stack = s.stack := rfl
@[simp] theorem setSt_sp (b : Byte) : (setSt s b).sp = s.sp := rfl
@[simp] theorem setSt_dt (b : Byte) : (setSt s b).dt = s.dt := rfl
@[simp] theorem setSt_st (b : Byte) : (setSt s b).st = b := rfl
@[simp] theorem setSt_mem (b : Byte) : (setSt s b).mem = s.mem := rfl
@[simp] theorem setSt_fb (b : Byte) : (setSt s b).fb = s.fb := rfl
@[simp] theorem setSt_keys (b : Byte) : (setSt s b).keys = s.keys := rfl
@[simp] theorem setSt_halted (b : Byte) : (setSt s b).halted = s.halted := rfl
@[simp] theorem setSt_faultCause (b : Byte) : (setSt s b).faultCause = s.faultCause := rfl
@[simp] theorem setSt_config (b : Byte) : (setSt s b).config = s.config := rfl
@[simp] theorem setSt_draws (b : Byte) : (setSt s b).draws = s.draws := rfl

/-! ### `raiseFault` -/

@[simp] theorem raiseFault_v (c : FaultCause) : (raiseFault s c).v = s.v := rfl
@[simp] theorem raiseFault_pc (c : FaultCause) : (raiseFault s c).pc = s.pc := rfl
@[simp] theorem raiseFault_index (c : FaultCause) : (raiseFault s c).index = s.index := rfl
@[simp] theorem raiseFault_stack (c : FaultCause) : (raiseFault s c).stack = s.stack := rfl
@[simp] theorem raiseFault_sp (c : FaultCause) : (raiseFault s c).sp = s.sp := rfl
@[simp] theorem raiseFault_dt (c : FaultCause) : (raiseFault s c).dt = s.dt := rfl
@[simp] theorem raiseFault_st (c : FaultCause) : (raiseFault s c).st = s.st := rfl
@[simp] theorem raiseFault_mem (c : FaultCause) : (raiseFault s c).mem = s.mem := rfl
@[simp] theorem raiseFault_fb (c : FaultCause) : (raiseFault s c).fb = s.fb := rfl
@[simp] theorem raiseFault_keys (c : FaultCause) : (raiseFault s c).keys = s.keys := rfl
@[simp] theorem raiseFault_halted (c : FaultCause) : (raiseFault s c).halted = true := rfl
@[simp] theorem raiseFault_faultCause (c : FaultCause) : (raiseFault s c).faultCause = c.code := rfl
@[simp] theorem raiseFault_config (c : FaultCause) : (raiseFault s c).config = s.config := rfl
@[simp] theorem raiseFault_draws (c : FaultCause) : (raiseFault s c).draws = s.draws := rfl

/-! ### `advancePc` -/

@[simp] theorem advancePc_v : (advancePc s).v = s.v := rfl
@[simp] theorem advancePc_pc : (advancePc s).pc = s.pc + 2#16 := rfl
@[simp] theorem advancePc_index : (advancePc s).index = s.index := rfl
@[simp] theorem advancePc_stack : (advancePc s).stack = s.stack := rfl
@[simp] theorem advancePc_sp : (advancePc s).sp = s.sp := rfl
@[simp] theorem advancePc_dt : (advancePc s).dt = s.dt := rfl
@[simp] theorem advancePc_st : (advancePc s).st = s.st := rfl
@[simp] theorem advancePc_mem : (advancePc s).mem = s.mem := rfl
@[simp] theorem advancePc_fb : (advancePc s).fb = s.fb := rfl
@[simp] theorem advancePc_keys : (advancePc s).keys = s.keys := rfl
@[simp] theorem advancePc_halted : (advancePc s).halted = s.halted := rfl
@[simp] theorem advancePc_faultCause : (advancePc s).faultCause = s.faultCause := rfl
@[simp] theorem advancePc_config : (advancePc s).config = s.config := rfl
@[simp] theorem advancePc_draws : (advancePc s).draws = s.draws := rfl

/-! ### `rewindPc` -/

@[simp] theorem rewindPc_v : (rewindPc s).v = s.v := rfl
@[simp] theorem rewindPc_pc : (rewindPc s).pc = s.pc - 2#16 := rfl
@[simp] theorem rewindPc_index : (rewindPc s).index = s.index := rfl
@[simp] theorem rewindPc_stack : (rewindPc s).stack = s.stack := rfl
@[simp] theorem rewindPc_sp : (rewindPc s).sp = s.sp := rfl
@[simp] theorem rewindPc_dt : (rewindPc s).dt = s.dt := rfl
@[simp] theorem rewindPc_st : (rewindPc s).st = s.st := rfl
@[simp] theorem rewindPc_mem : (rewindPc s).mem = s.mem := rfl
@[simp] theorem rewindPc_fb : (rewindPc s).fb = s.fb := rfl
@[simp] theorem rewindPc_keys : (rewindPc s).keys = s.keys := rfl
@[simp] theorem rewindPc_halted : (rewindPc s).halted = s.halted := rfl
@[simp] theorem rewindPc_faultCause : (rewindPc s).faultCause = s.faultCause := rfl
@[simp] theorem rewindPc_config : (rewindPc s).config = s.config := rfl
@[simp] theorem rewindPc_draws : (rewindPc s).draws = s.draws := rfl

/-! ### `setFb` -/

@[simp] theorem setFb_v (g : FrameBuffer) : (setFb s g).v = s.v := rfl
@[simp] theorem setFb_pc (g : FrameBuffer) : (setFb s g).pc = s.pc := rfl
@[simp] theorem setFb_index (g : FrameBuffer) : (setFb s g).index = s.index := rfl
@[simp] theorem setFb_stack (g : FrameBuffer) : (setFb s g).stack = s.stack := rfl
@[simp] theorem setFb_sp (g : FrameBuffer) : (setFb s g).sp = s.sp := rfl
@[simp] theorem setFb_dt (g : FrameBuffer) : (setFb s g).dt = s.dt := rfl
@[simp] theorem setFb_st (g : FrameBuffer) : (setFb s g).st = s.st := rfl
@[simp] theorem setFb_mem (g : FrameBuffer) : (setFb s g).mem = s.mem := rfl
@[simp] theorem setFb_fb (g : FrameBuffer) : (setFb s g).fb = g := rfl
@[simp] theorem setFb_keys (g : FrameBuffer) : (setFb s g).keys = s.keys := rfl
@[simp] theorem setFb_halted (g : FrameBuffer) : (setFb s g).halted = s.halted := rfl
@[simp] theorem setFb_faultCause (g : FrameBuffer) : (setFb s g).faultCause = s.faultCause := rfl
@[simp] theorem setFb_config (g : FrameBuffer) : (setFb s g).config = s.config := rfl
@[simp] theorem setFb_draws (g : FrameBuffer) : (setFb s g).draws = s.draws := rfl

/-! ### `displayClear` -/

@[simp] theorem displayClear_v : (displayClear s).v = s.v := rfl
@[simp] theorem displayClear_pc : (displayClear s).pc = s.pc := rfl
@[simp] theorem displayClear_index : (displayClear s).index = s.index := rfl
@[simp] theorem displayClear_stack : (displayClear s).stack = s.stack := rfl
@[simp] theorem displayClear_sp : (displayClear s).sp = s.sp := rfl
@[simp] theorem displayClear_dt : (displayClear s).dt = s.dt := rfl
@[simp] theorem displayClear_st : (displayClear s).st = s.st := rfl
@[simp] theorem displayClear_mem : (displayClear s).mem = s.mem := rfl
@[simp] theorem displayClear_fb : (displayClear s).fb = Vector.replicate 32 0#64 := rfl
@[simp] theorem displayClear_keys : (displayClear s).keys = s.keys := rfl
@[simp] theorem displayClear_halted : (displayClear s).halted = s.halted := rfl
@[simp] theorem displayClear_faultCause : (displayClear s).faultCause = s.faultCause := rfl
@[simp] theorem displayClear_config : (displayClear s).config = s.config := rfl
@[simp] theorem displayClear_draws : (displayClear s).draws = s.draws := rfl

/-! ### `displayXor` -/

@[simp] theorem displayXor_v (x y : Nat) : ((displayXor s x y).1).v = s.v := rfl
@[simp] theorem displayXor_pc (x y : Nat) : ((displayXor s x y).1).pc = s.pc := rfl
@[simp] theorem displayXor_index (x y : Nat) : ((displayXor s x y).1).index = s.index := rfl
@[simp] theorem displayXor_stack (x y : Nat) : ((displayXor s x y).1).stack = s.stack := rfl
@[simp] theorem displayXor_sp (x y : Nat) : ((displayXor s x y).1).sp = s.sp := rfl
@[simp] theorem displayXor_dt (x y : Nat) : ((displayXor s x y).1).dt = s.dt := rfl
@[simp] theorem displayXor_st (x y : Nat) : ((displayXor s x y).1).st = s.st := rfl
@[simp] theorem displayXor_mem (x y : Nat) : ((displayXor s x y).1).mem = s.mem := rfl
@[simp] theorem displayXor_fb (x y : Nat) : ((displayXor s x y).1).fb =
    s.fb.set (wrapRow y) (s.fb[wrapRow y] ^^^ BitVec.twoPow 64 (wrapCol x)) := rfl
@[simp] theorem displayXor_keys (x y : Nat) : ((displayXor s x y).1).keys = s.keys := rfl
@[simp] theorem displayXor_halted (x y : Nat) : ((displayXor s x y).1).halted = s.halted := rfl
@[simp] theorem displayXor_faultCause (x y : Nat) : ((displayXor s x y).1).faultCause = s.faultCause := rfl
@[simp] theorem displayXor_config (x y : Nat) : ((displayXor s x y).1).config = s.config := rfl
@[simp] theorem displayXor_draws (x y : Nat) : ((displayXor s x y).1).draws = s.draws := rfl

/-! ### `rndByte` -/

@[simp] theorem rndByte_v : ((rndByte s).2).v = s.v := rfl
@[simp] theorem rndByte_pc : ((rndByte s).2).pc = s.pc := rfl
@[simp] theorem rndByte_index : ((rndByte s).2).index = s.index := rfl
@[simp] theorem rndByte_stack : ((rndByte s).2).stack = s.stack := rfl
@[simp] theorem rndByte_sp : ((rndByte s).2).sp = s.sp := rfl
@[simp] theorem rndByte_dt : ((rndByte s).2).dt = s.dt := rfl
@[simp] theorem rndByte_st : ((rndByte s).2).st = s.st := rfl
@[simp] theorem rndByte_mem : ((rndByte s).2).mem = s.mem := rfl
@[simp] theorem rndByte_fb : ((rndByte s).2).fb = s.fb := rfl
@[simp] theorem rndByte_keys : ((rndByte s).2).keys = s.keys := rfl
@[simp] theorem rndByte_halted : ((rndByte s).2).halted = s.halted := rfl
@[simp] theorem rndByte_faultCause : ((rndByte s).2).faultCause = s.faultCause := rfl
@[simp] theorem rndByte_config : ((rndByte s).2).config = s.config := rfl
@[simp] theorem rndByte_draws : ((rndByte s).2).draws = s.draws + 1 := rfl

/-! ### `resetCore` -/

@[simp] theorem resetCore_v : (resetCore s).v = State.reset.v := rfl
@[simp] theorem resetCore_pc : (resetCore s).pc = State.reset.pc := rfl
@[simp] theorem resetCore_index : (resetCore s).index = State.reset.index := rfl
@[simp] theorem resetCore_stack : (resetCore s).stack = State.reset.stack := rfl
@[simp] theorem resetCore_sp : (resetCore s).sp = State.reset.sp := rfl
@[simp] theorem resetCore_dt : (resetCore s).dt = State.reset.dt := rfl
@[simp] theorem resetCore_st : (resetCore s).st = State.reset.st := rfl
@[simp] theorem resetCore_mem : (resetCore s).mem = State.reset.mem := rfl
@[simp] theorem resetCore_fb : (resetCore s).fb = State.reset.fb := rfl
@[simp] theorem resetCore_keys : (resetCore s).keys = State.reset.keys := rfl
@[simp] theorem resetCore_halted : (resetCore s).halted = State.reset.halted := rfl
@[simp] theorem resetCore_faultCause : (resetCore s).faultCause = State.reset.faultCause := rfl
@[simp] theorem resetCore_config : (resetCore s).config = s.config := rfl
@[simp] theorem resetCore_draws : (resetCore s).draws = s.draws := rfl

/-! ### `skipIf`: only pc can change -/

@[simp] theorem skipIf_v (c : Bool) : (skipIf s c).v = s.v := by cases c <;> rfl
@[simp] theorem skipIf_pc (c : Bool) :
    (skipIf s c).pc = if c then s.pc + 2#16 else s.pc := by cases c <;> rfl
@[simp] theorem skipIf_index (c : Bool) : (skipIf s c).index = s.index := by cases c <;> rfl
@[simp] theorem skipIf_stack (c : Bool) : (skipIf s c).stack = s.stack := by cases c <;> rfl
@[simp] theorem skipIf_sp (c : Bool) : (skipIf s c).sp = s.sp := by cases c <;> rfl
@[simp] theorem skipIf_dt (c : Bool) : (skipIf s c).dt = s.dt := by cases c <;> rfl
@[simp] theorem skipIf_st (c : Bool) : (skipIf s c).st = s.st := by cases c <;> rfl
@[simp] theorem skipIf_mem (c : Bool) : (skipIf s c).mem = s.mem := by cases c <;> rfl
@[simp] theorem skipIf_fb (c : Bool) : (skipIf s c).fb = s.fb := by cases c <;> rfl
@[simp] theorem skipIf_keys (c : Bool) : (skipIf s c).keys = s.keys := by cases c <;> rfl
@[simp] theorem skipIf_halted (c : Bool) : (skipIf s c).halted = s.halted := by cases c <;> rfl
@[simp] theorem skipIf_faultCause (c : Bool) : (skipIf s c).faultCause = s.faultCause := by cases c <;> rfl
@[simp] theorem skipIf_config (c : Bool) : (skipIf s c).config = s.config := by cases c <;> rfl
@[simp] theorem skipIf_draws (c : Bool) : (skipIf s c).draws = s.draws := by cases c <;> rfl

/-! ### `write2`: only the registers can change -/

theorem write2_v (x : Nibble) (r : Byte) (f : Bool) :
    (write2 s x r f).v =
      match s.config.vfWriteOrder with
      | .flagLast => (s.v.set x.toNat r).set vf.toNat (flagByte f)
      | .resultLast => (s.v.set vf.toNat (flagByte f)).set x.toNat r := by
  unfold write2; cases s.config.vfWriteOrder <;> rfl
@[simp] theorem write2_pc (x : Nibble) (r : Byte) (f : Bool) : (write2 s x r f).pc = s.pc := by
  unfold write2; cases s.config.vfWriteOrder <;> rfl
@[simp] theorem write2_index (x : Nibble) (r : Byte) (f : Bool) : (write2 s x r f).index = s.index := by
  unfold write2; cases s.config.vfWriteOrder <;> rfl
@[simp] theorem write2_stack (x : Nibble) (r : Byte) (f : Bool) : (write2 s x r f).stack = s.stack := by
  unfold write2; cases s.config.vfWriteOrder <;> rfl
@[simp] theorem write2_sp (x : Nibble) (r : Byte) (f : Bool) : (write2 s x r f).sp = s.sp := by
  unfold write2; cases s.config.vfWriteOrder <;> rfl
@[simp] theorem write2_dt (x : Nibble) (r : Byte) (f : Bool) : (write2 s x r f).dt = s.dt := by
  unfold write2; cases s.config.vfWriteOrder <;> rfl
@[simp] theorem write2_st (x : Nibble) (r : Byte) (f : Bool) : (write2 s x r f).st = s.st := by
  unfold write2; cases s.config.vfWriteOrder <;> rfl
@[simp] theorem write2_mem (x : Nibble) (r : Byte) (f : Bool) : (write2 s x r f).mem = s.mem := by
  unfold write2; cases s.config.vfWriteOrder <;> rfl
@[simp] theorem write2_fb (x : Nibble) (r : Byte) (f : Bool) : (write2 s x r f).fb = s.fb := by
  unfold write2; cases s.config.vfWriteOrder <;> rfl
@[simp] theorem write2_keys (x : Nibble) (r : Byte) (f : Bool) : (write2 s x r f).keys = s.keys := by
  unfold write2; cases s.config.vfWriteOrder <;> rfl
@[simp] theorem write2_halted (x : Nibble) (r : Byte) (f : Bool) : (write2 s x r f).halted = s.halted := by
  unfold write2; cases s.config.vfWriteOrder <;> rfl
@[simp] theorem write2_faultCause (x : Nibble) (r : Byte) (f : Bool) : (write2 s x r f).faultCause = s.faultCause := by
  unfold write2; cases s.config.vfWriteOrder <;> rfl
@[simp] theorem write2_config (x : Nibble) (r : Byte) (f : Bool) : (write2 s x r f).config = s.config := by
  unfold write2; cases s.config.vfWriteOrder <;> rfl
@[simp] theorem write2_draws (x : Nibble) (r : Byte) (f : Bool) : (write2 s x r f).draws = s.draws := by
  unfold write2; cases s.config.vfWriteOrder <;> rfl

/-! ### Registers through `getV` -/

theorem getV_setV (x r : Nibble) (b : Byte) : getV (setV s x b) r = if r = x then b else getV s r := by
  simp only [getV, setV_v, Vector.getElem_set, BitVec.toNat_inj]
  exact if_congr eq_comm rfl rfl

@[simp] theorem getV_setV_self (x : Nibble) (b : Byte) : getV (setV s x b) x = b := by
  simp [getV_setV]

theorem getV_setV_of_ne {x r : Nibble} (b : Byte) (h : r ≠ x) : getV (setV s x b) r = getV s r := by
  simp [getV_setV, h]

/-- `getV` sees only the register file. -/
theorem getV_congr {s t : State} (h : t.v = s.v) (r : Nibble) : getV t r = getV s r := by
  simp [getV, h]

end Sys2Proof.Machine
end

