-- ==== Sys2Proof/Laws/Memory.lean ====
section
/-! SUPPORT. Memory as a canonical list: what a read after a write gives, that every memory operation keeps the canonical
form, and that equal memories are equal lists. Then what `memWrite` and `storeBytes` can do, said once. -/

namespace Sys2Proof.Machine

/-! ### The canonical form -/

theorem Memory.wfFrom_cons {lo a : Nat} {b : Byte} {m : Memory} :
    Memory.wfFrom lo ((a, b) :: m) = true ↔
      lo ≤ a ∧ a < memSize ∧ b ≠ 0x00#8 ∧ Memory.wfFrom (a + 1) m = true := by
  simp only [Memory.wfFrom, Bool.and_eq_true, decide_eq_true_eq, and_assoc]

theorem Memory.wfFrom_mono {lo lo' : Nat} {m : Memory} (h : Memory.wfFrom lo m = true) (hl : lo' ≤ lo) :
    Memory.wfFrom lo' m = true := by
  cases m with
  | nil => rfl
  | cons c m =>
    rw [Memory.wfFrom_cons] at h ⊢
    exact ⟨by omega, h.2⟩

theorem Memory.get_of_lt {lo a : Nat} {m : Memory} (h : Memory.wfFrom lo m = true) (ha : a < lo) :
    Memory.get m a = 0x00#8 := by
  cases m with
  | nil => rfl
  | cons c m =>
    rw [Memory.wfFrom_cons] at h
    simp [Memory.get, show a < c.1 by omega]

theorem Memory.wfFrom_set {m : Memory} {a : Nat} (b : Byte) (ha : a < memSize) :
    ∀ {lo : Nat}, lo ≤ a → Memory.wfFrom lo m = true → Memory.wfFrom lo (Memory.set m a b) = true := by
  induction m with
  | nil =>
    intro lo hl _
    by_cases hb : b = 0x00#8
    · simp [Memory.set, hb, Memory.wfFrom]
    · rw [Memory.set, if_neg hb, Memory.wfFrom_cons]
      exact ⟨hl, ha, hb, rfl⟩
  | cons c m ih =>
    intro lo hl h
    have h' := Memory.wfFrom_cons.mp h
    rw [Memory.set]
    by_cases h1 : a < c.1
    · rw [if_pos h1]
      by_cases hb : b = 0x00#8
      · rw [if_pos hb]; exact h
      · rw [if_neg hb, Memory.wfFrom_cons]
        exact ⟨hl, ha, hb, Memory.wfFrom_cons.mpr ⟨h1, h'.2⟩⟩
    · rw [if_neg h1]
      by_cases h2 : a = c.1
      · rw [if_pos h2]
        by_cases hb : b = 0x00#8
        · rw [if_pos hb]; exact Memory.wfFrom_mono h'.2.2.2 (by omega)
        · rw [if_neg hb, Memory.wfFrom_cons, h2]
          exact ⟨h'.1, h'.2.1, hb, h'.2.2.2⟩
      · rw [if_neg h2, Memory.wfFrom_cons]
        exact ⟨h'.1, h'.2.1, h'.2.2.1, ih (by omega) h'.2.2.2⟩

theorem Memory.wf_set {m : Memory} {a : Nat} (b : Byte) (ha : a < memSize) (h : Memory.wf m = true) :
    Memory.wf (Memory.set m a b) = true :=
  Memory.wfFrom_set b ha (Nat.zero_le _) h

/-- A read after a write: the byte written, and every other byte as before. -/
theorem Memory.get_set {m : Memory} {a : Nat} (b : Byte) (c : Nat) :
    ∀ {lo : Nat}, Memory.wfFrom lo m = true →
      Memory.get (Memory.set m a b) c = if c = a then b else Memory.get m c := by
  induction m with
  | nil =>
    intro lo _
    by_cases hb : b = 0x00#8
    · simp [Memory.set, hb, Memory.get]
    · rw [Memory.set, if_neg hb]
      simp only [Memory.get]
      by_cases h : c = a
      · simp [h]
      · simp [h]
  | cons d m ih =>
    intro lo h
    have h' := Memory.wfFrom_cons.mp h
    rw [Memory.set]
    by_cases h1 : a < d.1
    · rw [if_pos h1]
      by_cases hb : b = 0x00#8
      · rw [if_pos hb, hb]
        by_cases hc : c = a
        · simp [hc, Memory.get, h1]
        · simp [hc]
      · rw [if_neg hb]
        by_cases hc : c = a
        · simp [hc, Memory.get]
        · by_cases hca : c < a
          · simp [Memory.get, hc, hca, show c < d.1 by omega]
          · simp [Memory.get, hc, hca]
    · rw [if_neg h1]
      by_cases h2 : a = d.1
      · rw [if_pos h2]
        by_cases hb : b = 0x00#8
        · rw [if_pos hb, hb]
          by_cases hc : c < d.1 + 1
          · rw [Memory.get_of_lt h'.2.2.2 hc]
            by_cases hca : c = a
            · simp [hca]
            · simp [Memory.get, hca, show c < d.1 by omega]
          · simp [Memory.get, show ¬c = a by omega, show ¬c < d.1 by omega, show ¬c = d.1 by omega]
        · rw [if_neg hb]
          by_cases hc : c = a
          · simp [hc, Memory.get]
          · simp [Memory.get, hc, ← h2]
      · rw [if_neg h2]
        by_cases hc : c < d.1
        · simp [Memory.get, hc, show ¬c = a by omega]
        · by_cases hd : d.1 = c
          · simp [Memory.get, hd, show ¬c = a by omega]
          · simp [Memory.get, hc, show ¬c = d.1 by omega, ih h'.2.2.2]

/-- Equal memories are equal lists. -/
theorem Memory.ext_of_get {m n : Memory} :
    ∀ {lo : Nat}, Memory.wfFrom lo m = true → Memory.wfFrom lo n = true →
      (∀ a, Memory.get m a = Memory.get n a) → m = n := by
  induction m generalizing n with
  | nil =>
    intro lo _ hn h
    cases n with
    | nil => rfl
    | cons d n =>
      have := (Memory.wfFrom_cons.mp hn).2.2.1
      have hd := h d.1
      simp [Memory.get] at hd
      exact absurd hd.symm this
  | cons c m ih =>
    intro lo hm hn h
    have hm' := Memory.wfFrom_cons.mp hm
    cases n with
    | nil =>
      have hc := h c.1
      simp [Memory.get] at hc
      exact absurd hc hm'.2.2.1
    | cons d n =>
      have hn' := Memory.wfFrom_cons.mp hn
      have key : c.1 = d.1 := by
        rcases Nat.lt_trichotomy c.1 d.1 with hlt | heq | hgt
        · have := h c.1
          simp [Memory.get, hlt] at this
          exact absurd this hm'.2.2.1
        · exact heq
        · have := h d.1
          simp [Memory.get, hgt] at this
          exact absurd this.symm hn'.2.2.1
      have val : c.2 = d.2 := by
        have := h c.1
        simpa [Memory.get, key] using this
      have tail : m = n := by
        refine ih (lo := c.1 + 1) hm'.2.2.2 (by rw [key]; exact hn'.2.2.2) ?_
        intro a
        by_cases ha : a < c.1 + 1
        · rw [Memory.get_of_lt hm'.2.2.2 ha, Memory.get_of_lt hn'.2.2.2 (by omega)]
        · have := h a
          simpa [Memory.get, show ¬a < c.1 by omega, show ¬a = c.1 by omega, show ¬a < d.1 by omega,
            show ¬a = d.1 by omega] using this
      rw [tail, show c = d from Prod.ext key val]

/-! ### One byte -/

theorem memRead_of_lt (s : State) {a : Nat} (h : a < memSize) : memRead s a = some (Memory.get s.mem a) := by
  simp [memRead, h]

theorem memRead_of_ge (s : State) {a : Nat} (h : memSize ≤ a) : memRead s a = none := by
  simp [memRead, Nat.not_lt.mpr h]

/-- `memRead` sees only memory. -/
theorem memRead_congr {s t : State} (h : t.mem = s.mem) (a : Nat) : memRead t a = memRead s a := by
  simp [memRead, h]

theorem memWrite_of_lt (s : State) {a : Nat} (b : Byte) (h : a < memSize) :
    memWrite s a b = some { s with mem := Memory.set s.mem a b } := by
  simp [memWrite, h]

theorem memWrite_of_ge (s : State) {a : Nat} (b : Byte) (h : memSize ≤ a) : memWrite s a b = none := by
  simp [memWrite, Nat.not_lt.mpr h]

/-! ### Bytes in a row -/

/-- Memory with `bs` at `a`, `a + 1`, ... -/
def Memory.setMany (m : Memory) (a : Nat) : List Byte → Memory
  | [] => m
  | b :: bs => Memory.setMany (Memory.set m a b) (a + 1) bs

theorem Memory.wf_setMany {bs : List Byte} :
    ∀ {m : Memory} {a : Nat}, a + bs.length ≤ memSize → Memory.wf m = true → Memory.wf (Memory.setMany m a bs) = true := by
  induction bs with
  | nil => intro m a _ h; exact h
  | cons b bs ih =>
    intro m a ha h
    simp only [List.length_cons] at ha
    exact ih (by omega) (Memory.wf_set b (by omega) h)

theorem Memory.get_setMany {bs : List Byte} (c : Nat) :
    ∀ {m : Memory} {a : Nat}, a + bs.length ≤ memSize → Memory.wf m = true →
      Memory.get (Memory.setMany m a bs) c =
        if h : a ≤ c ∧ c < a + bs.length then bs[c - a]'(by omega) else Memory.get m c := by
  induction bs with
  | nil => intro m a _ _; simp [Memory.setMany, show ¬(a ≤ c ∧ c < a) by omega]
  | cons b bs ih =>
    intro m a ha h
    simp only [List.length_cons] at ha
    rw [Memory.setMany, ih (by omega) (Memory.wf_set b (by omega) h), Memory.get_set b c h]
    by_cases hc : c = a
    · subst hc
      simp
    · by_cases hin : a + 1 ≤ c ∧ c < a + 1 + bs.length
      · obtain ⟨k, rfl⟩ : ∃ k, c = a + 1 + k := ⟨c - (a + 1), by omega⟩
        have hk : a + 1 + k - a = k + 1 := by omega
        simp only [List.length_cons, hk, List.getElem_cons_succ]
        rw [dif_pos hin, dif_pos (by omega)]
        congr 1
        omega
      · rw [dif_neg hin, if_neg hc, dif_neg (by simp only [List.length_cons]; omega)]

/-- Everything `storeBytes` can do, where all addresses exist. -/
theorem storeBytes_of_le {bs : List Byte} :
    ∀ (s : State) {a : Nat}, a + bs.length ≤ memSize →
      storeBytes s a bs = { s with mem := Memory.setMany s.mem a bs } := by
  induction bs with
  | nil => intro s a _; rfl
  | cons b bs ih =>
    intro s a ha
    simp only [List.length_cons] at ha
    rw [storeBytes, memWrite_of_lt s b (by omega)]
    simp only []
    rw [ih _ (by omega)]
    rfl

/-- Everything `storeBytes` can do, where some address does not exist: the bytes before it are written, then
OutOfBounds. -/
theorem storeBytes_of_gt {bs : List Byte} :
    ∀ (s : State) {a : Nat}, bs ≠ [] → memSize < a + bs.length →
      storeBytes s a bs =
        raiseFault { s with mem := Memory.setMany s.mem a (bs.take (memSize - a)) } .outOfBounds := by
  induction bs with
  | nil => intro s a h _; exact absurd rfl h
  | cons b bs ih =>
    intro s a _ ha
    simp only [List.length_cons] at ha
    by_cases h : a < memSize
    · rw [storeBytes, memWrite_of_lt s b h]
      simp only []
      rw [ih _ (by intro h0; subst h0; simp at ha; omega) (by omega)]
      obtain ⟨k, hk⟩ : ∃ k, memSize - a = k + 1 := ⟨memSize - a - 1, by omega⟩
      rw [hk, List.take_succ_cons, show memSize - (a + 1) = k by omega]
      rfl
    · rw [storeBytes, memWrite_of_ge s b (by omega), show memSize - a = 0 by omega]
      rfl

/-- `storeBytes` keeps the canonical form. -/
theorem wf_storeBytes (s : State) (a : Nat) (bs : List Byte) (h : Memory.wf s.mem = true) :
    Memory.wf (storeBytes s a bs).mem = true := by
  by_cases hb : a + bs.length ≤ memSize
  · rw [storeBytes_of_le s hb]
    exact Memory.wf_setMany hb h
  · by_cases he : bs = []
    · subst he; exact h
    · rw [storeBytes_of_gt s he (by omega)]
      by_cases ha : a ≤ memSize
      · exact Memory.wf_setMany (by rw [List.length_take]; omega) h
      · simpa [raiseFault, show memSize - a = 0 by omega, Memory.setMany] using h

theorem Memory.wf_reset : Memory.wf State.reset.mem = true := rfl

end Sys2Proof.Machine
end

