-- ==== Sys2Proof/Laws/Ops.lean ====
section
/-! SUPPORT. One lemma for each shared operation that says everything it can do: operand forms, flags, `write2`,
    skips, the
stack, the keypad, and the bulk store and load. -/

namespace Sys2Proof.Machine

/-! ### Operand forms and flags -/

/-- R54. -/
theorem zextAddr_eq (nnn : Addr12) : zextAddr nnn = 0x0#4 ++ nnn := by
  apply BitVec.eq_of_toNat_eq
  rw [BitVec.toNat_append, zextAddr]
  have := nnn.isLt
  simp
  omega

/-- R93: the registers a bulk store writes, in rising order. -/
theorem regsUpTo_eq (s : State) (x : Nibble) : regsUpTo s x = s.v.toList.take (x.toNat + 1) := by
  apply List.ext_getElem
  · simp [regsUpTo]; omega
  · intro n h1 h2
    simp [regsUpTo] at h1
    have := x.isLt
    simp [regsUpTo, getV, Nat.mod_eq_of_lt (show n < 16 by omega)]

theorem addMod_eq_add (a b : Byte) : addMod a b = a + b := rfl

theorem subMod_eq_sub (a b : Byte) : subMod a b = a - b := by
  apply BitVec.eq_of_toNat_eq
  have := a.isLt; have := b.isLt
  simp [subMod, BitVec.toNat_sub]
  omega

theorem flagByte_noBorrow (a b : Byte) : flagByte (noBorrow a b) = if a < b then 0#8 else 1#8 := by
  by_cases h : a < b
  · have := BitVec.lt_def.mp h
    simp [flagByte, noBorrow, h, this]
  · have := h
    rw [BitVec.lt_def, Nat.not_lt] at this
    simp [flagByte, noBorrow, h, this]

/-! ### `write2` and the skip -/

/-- R76: in every configuration `write2` leaves what `twoWrites` says. -/
theorem write2_eq_twoWrites (s : State) (x : Nibble) (r : Byte) (f : Bool) (g : Byte) (h : flagByte f =
    g) : write2 s x r f = twoWrites s x r g := by
  subst h
  unfold write2 twoWrites
  cases hc : s.config.vfWriteOrder <;> simp [setV]

/-- Everything `write2` can do to V0..VF: registers other than VX and VF keep their value, and the flag is 0 or 1 unless
the result went to VF. -/
theorem write2_frame (s : State) (x : Nibble) (r : Byte) (f : Bool) :
    write2 s x r f = { s with v := (write2 s x r f).v } ∧
    (∀ q, q ≠ x → q ≠ vf → getV (write2 s x r f) q = getV s q) ∧
    (x ≠ vf → getV (write2 s x r f) vf = 0#8 ∨ getV (write2 s x r f) vf = 1#8) := by
  have hf : flagByte f = 0#8 ∨ flagByte f = 1#8 := by cases f <;> simp [flagByte]
  unfold write2
  cases s.config.vfWriteOrder
  · exact ⟨rfl, fun q h1 h2 => by simp [getV_setV, h1, h2], fun h => by simpa [getV_setV] using hf⟩
  · exact ⟨rfl, fun q h1 h2 => by simp [getV_setV, h1, h2], fun h => by simpa [getV_setV, Ne.symm h] using hf⟩

/-- Everything a register write can do. -/
theorem setV_frame (s : State) (x : Nibble) (b : Byte) : setV s x b = { s with v := (setV s x b).v } ∧
    ∀ r, r ≠ x → getV (setV s x b) r = getV s r :=
  ⟨rfl, fun _ h => getV_setV_of_ne _ _ h⟩

/-- R66: everything a skip can do. -/
theorem skipIf_eq (s : State) (c : Bool) : skipIf s c = { s with pc := if c = true then s.pc + 2#16 else s.pc } := by
  cases c <;> rfl

theorem skipIf_frame (s : State) (c : Bool) : skipIf s c = { s with pc := (skipIf s c).pc } := by cases c <;> rfl

/-! ### The stack -/

/-- R22: a push below capacity. -/
theorem push_of_lt (s : State) (a : Word) (h : s.sp.val < 16) :
    push s a = some { s with stack := s.stack.set s.sp.val a, sp := ⟨s.sp.val + 1, by omega⟩ } := by
  simp [push, h]

theorem push_full (s : State) (a : Word) (h : s.sp.val = 16) : push s a = none := by
  simp [push, h]

/-- R23: a pop of a stack that is not empty. -/
theorem pop_of_pos (s : State) (h : 0 < s.sp.val) :
    pop s = some (s.stack[s.sp.val - 1], { s with sp := ⟨s.sp.val - 1, by omega⟩ }) := by
  simp [pop, h]

theorem pop_empty (s : State) (h : s.sp.val = 0) : pop s = none := by
  simp [pop, h]

/-! ### Keypad -/

/-- R28. -/
theorem keyDown_fin (s : State) (k : Fin 16) : keyDown s (BitVec.ofNat 4 k.val) = s.keys[k] := by
  simp [keyDown]

/-- R101, R102: a key index below 16. -/
theorem keyOperand_of_lt (s : State) (x : Nibble) (k : Fin 16) (h : (getV s x).toNat = k.val) :
    keyOperand s x = some (BitVec.ofNat 4 k.val) := by
  simp [keyOperand, h, nKeys, k.isLt]

theorem keyOperand_of_ge (s : State) (x : Nibble) (h : 16 ≤ (getV s x).toNat) : keyOperand s x = none := by
  simp [keyOperand, nKeys]
  omega

/-- R29, no key pressed. -/
theorem firstKey_none (s : State) (h : ∀ j : Fin 16, s.keys[j] = false) : firstKey s = none := by
  rw [firstKey, List.find?_eq_none]
  intro k hk
  simp only [keyOrder, List.mem_map, List.mem_range] at hk
  obtain ⟨j, hj, rfl⟩ := hk
  rw [keyDown_fin s ⟨j, hj⟩, h]
  simp

theorem find_in_range {p : Nibble → Bool} (n k : Nat) (hk : k < n) (hp : p (BitVec.ofNat 4 k) = true)
    (hm : ∀ j, j < k → p (BitVec.ofNat 4 j) = false) : ((List.range n).map (BitVec.ofNat 4)).find? p =
        some (BitVec.ofNat 4 k) := by
  rw [List.find?_map, List.find?_range_eq_some.2]
  · rfl
  · refine ⟨hp, by simpa using hk, fun j hj => by simp [hm j hj]⟩

/-- R29, the lowest-indexed pressed key. -/
theorem firstKey_some (s : State) (k : Fin 16) (h1 : s.keys[k] = true) (h2 : ∀ j : Fin 16, j < k → s.keys[j] = false) :
    firstKey s = some (BitVec.ofNat 4 k.val) :=
  find_in_range 16 k.val k.isLt (by rw [keyDown_fin, h1]) (fun j hj => by
    have := h2 ⟨j, by omega⟩ hj
    rw [← keyDown_fin] at this; exact this)

/-! ### Bytes stored in a row -/

theorem storedAt_setMany (s : State) (a : Nat) (bs : List Byte) (hw : Memory.wf s.mem =
    true) (h : a + bs.length ≤ memSize) :
    StoredAt s { s with mem := Memory.setMany s.mem a bs } a bs := by
  constructor
  · intro k hk
    rw [memRead_of_lt _ (by omega)]
    simp only [Memory.get_setMany _ h hw]
    rw [dif_pos (by omega)]
    simp [hk]
  · intro c hc
    unfold memRead
    simp only [Memory.get_setMany _ h hw]
    rw [dif_neg (by omega)]

/-- A bulk store all of whose addresses exist. -/
theorem storedAt_storeBytes_fit (s : State) (bs : List Byte) (hw : Memory.wf s.mem = true) (a : Nat)
    (h : a + bs.length ≤ memSize) :
    storeBytes s a bs = { s with mem := (storeBytes s a bs).mem } ∧ StoredAt s (storeBytes s a bs) a bs := by
  rw [storeBytes_of_le s h]
  exact ⟨rfl, storedAt_setMany s a bs hw h⟩

/-- A bulk store that reaches an address that does not exist. -/
theorem storedAt_storeBytes_over (s : State) (bs : List Byte) (hw : Memory.wf s.mem = true) (a : Nat) (hb : bs ≠ [])
    (h : memSize < a + bs.length) :
    storeBytes s a bs = { s with mem := (storeBytes s a bs).mem, halted := true, faultCause := 3#3 } ∧
      StoredAt s (storeBytes s a bs) a (bs.take (4096 - a)) := by
  rw [storeBytes_of_gt s hb h]
  refine ⟨rfl, ?_⟩
  by_cases ha : a ≤ memSize
  · exact storedAt_setMany s a (bs.take (memSize - a)) hw (by rw [List.length_take]; omega)
  · have h0 : 4096 - a = 0 := by simp only [memSize] at ha; omega
    rw [h0]
    exact ⟨by simp, fun c _ => rfl⟩

/-- Everything a bulk store can do outside memory. -/
theorem storeBytes_cases (s : State) (a : Nat) (bs : List Byte) :
    (∃ m, storeBytes s a bs = { s with mem := m } ∧ (bs = [] ∨ a + bs.length ≤ 4096)) ∨
    (∃ m, storeBytes s a bs = { s with mem := m, halted := true, faultCause := 3#3 } ∧ 4096 < a + bs.length) := by
  by_cases h : a + bs.length ≤ memSize
  · exact .inl ⟨_, storeBytes_of_le s h, .inr h⟩
  · by_cases he : bs = []
    · subst he; exact .inl ⟨s.mem, rfl, .inl rfl⟩
    · exact .inr ⟨_, storeBytes_of_gt s he (by omega), by simp only [memSize] at h; omega⟩

/-! ### Registers loaded in a row -/

/-- A bulk load all of whose addresses exist: registers `i` to `i + k - 1` are loaded, the others kept. -/
theorem loadRegs_fit (k : Nat) : ∀ (s : State) (a i : Nat), k = 0 ∨ a + i + k ≤ memSize → i + k ≤ 16 →
    (loadRegs s a i k = { s with v := (loadRegs s a i k).v }) ∧
    ∀ r : Nibble, (i ≤ r.toNat → r.toNat < i + k → memRead s (a + r.toNat) = some (getV (loadRegs s a i k) r)) ∧
      (r.toNat < i ∨ i + k ≤ r.toNat → getV (loadRegs s a i k) r = getV s r) := by
  induction k with
  | zero => intro s a i _ _; exact ⟨rfl, fun r => ⟨fun _ _ => by omega, fun _ => rfl⟩⟩
  | succ k ih =>
    intro s a i h h16
    have hai : a + i < memSize := by omega
    rw [loadRegs, memRead_of_lt s hai]
    simp only []
    obtain ⟨h1, h2⟩ := ih (setV s (BitVec.ofNat 4 i) (Memory.get s.mem (a + i))) a (i + 1) (by omega) (by omega)
    refine ⟨?_, fun r => ⟨fun hr1 hr2 => ?_, fun hr => ?_⟩⟩
    · rw [h1]; simp [setV]
    · by_cases hri : r.toNat = i
      · rw [(h2 r).2 (by omega)]
        have : r = BitVec.ofNat 4 i := by
          apply BitVec.eq_of_toNat_eq; simp; omega
        rw [this, getV_setV_self, ← this, hri, memRead_of_lt s hai]
      · have := (h2 r).1 (by omega) (by omega)
        rwa [memRead_congr (setV_mem s _ _)] at this
    · rw [(h2 r).2 (by omega), getV_setV_of_ne]
      intro he
      have := congrArg BitVec.toNat he
      simp at this
      omega

/-- A bulk load that reaches an address that does not exist: the loads before it, then OutOfBounds. -/
theorem loadRegs_over (k : Nat) : ∀ (s : State) (a i : Nat), 0 < k → memSize < a + i + k →
    loadRegs s a i k = raiseFault (loadRegs s a i (memSize - (a + i))) .outOfBounds := by
  induction k with
  | zero => intro s a i h; omega
  | succ k ih =>
    intro s a i _ h
    by_cases hai : a + i < memSize
    · rw [loadRegs, memRead_of_lt s hai]
      simp only []
      rw [ih _ _ _ (by omega) (by omega)]
      obtain ⟨m, hm⟩ : ∃ m, memSize - (a + i) = m + 1 := ⟨memSize - (a + i) - 1, by omega⟩
      rw [hm, loadRegs, memRead_of_lt s hai, show memSize - (a + (i + 1)) = m by omega]
    · rw [loadRegs, memRead_of_ge s (by omega), show memSize - (a + i) = 0 by omega]
      rfl

/-- Everything a bulk load can do outside V0..VF. -/
theorem loadRegs_cases (s : State) (a : Nat) (k : Nat) (hk : k ≤ 16) :
    (loadRegs s a 0 k = { s with v := (loadRegs s a 0 k).v } ∧
        (∀ r, k ≤ r.toNat → getV (loadRegs s a 0 k) r = getV s r)) ∨
    (loadRegs s a 0 k = { s with v := (loadRegs s a 0 k).v, halted := true, faultCause := 3#3 } ∧ 4096 < a + k ∧
        (∀ r, k ≤ r.toNat → getV (loadRegs s a 0 k) r = getV s r)) := by
  by_cases h : k = 0 ∨ a + 0 + k ≤ memSize
  · obtain ⟨h1, h2⟩ := loadRegs_fit k s a 0 h (by omega)
    exact .inl ⟨h1, fun r hr => (h2 r).2 (by omega)⟩
  · obtain ⟨h1, h2⟩ := loadRegs_fit (memSize - (a + 0)) s a 0 (by omega) (by simp only [memSize] at *; omega)
    have h3 := loadRegs_over k s a 0 (by omega) (by omega)
    refine .inr ⟨?_, by simp only [memSize] at h; omega, fun r hr => ?_⟩
    · rw [h3, h1]; rfl
    · rw [h3]; exact (h2 r).2 (by simp only [memSize] at *; omega)

end Sys2Proof.Machine
end

