-- ==== Sys2Proof/Laws/Display.lean ====
section
/-! SUPPORT. The display, pixel by pixel: what one toggle does, when two displays are equal,
    and everything a draw can do
(`Blit`: a set of pixels toggled, VF raised by a hit, nothing else). -/

namespace Sys2Proof.Machine

/-! ### One pixel -/

/-- R96: one toggle, seen at any coordinates. -/
theorem pixel_xor (s : State) (x y px py : Nat) :
    pixel (displayXor s x y).1 px py =
      if px % 64 = x % 64 ∧ py % 32 = y % 32 then !pixel s px py else pixel s px py := by
  simp only [pixel, displayXor, setFb, Fin.getElem_fin, Vector.getElem_set]
  have hx := Nat.mod_lt px (show 0 < 64 by decide)
  have hx2 := Nat.mod_lt x (show 0 < 64 by decide)
  by_cases hy : py % 32 = y % 32
  · have : wrapRow py = wrapRow y := Fin.ext hy
    simp only [this]
    by_cases hc : px % 64 = x % 64
    · simp [wrapCol, dispW, hc, hy, hx2]
    · simp [BitVec.getLsbD_xor, wrapCol, dispW, hc, Ne.symm hc, hy]
  · have : ¬ (wrapRow y).val = (wrapRow py).val := fun h => hy h.symm
    simp [this, hy]

/-- R95: coordinates wrap. -/
theorem pixel_wrap (s : State) (x y : Nat) : pixel s (x % 64) (y % 32) = pixel s x y := by
  have : wrapRow (y % 32) = wrapRow y := Fin.ext (by simp [wrapRow, dispH])
  simp [pixel, wrapCol, dispW, this]

/-- `pixel` sees only the display. -/
theorem pixel_congr {s t : State} (h : t.fb = s.fb) (x y : Nat) : pixel t x y = pixel s x y := by
  simp [pixel, h]

/-- Equal pixels, equal displays. -/
theorem fb_ext {s t : State} (h : ∀ x y, x < 64 → y < 32 → pixel s x y = pixel t x y) : s.fb = t.fb := by
  apply Vector.ext
  intro y hy
  apply BitVec.eq_of_getLsbD_eq
  intro x hx
  have := h x y hx hy
  simpa [pixel, wrapRow, wrapCol, dispW, dispH, Nat.mod_eq_of_lt hx, Nat.mod_eq_of_lt hy] using this

theorem blitPixel_eq (s : State) (x y : Nat) :
    blitPixel s x y = if pixel s x y = true then setV (displayXor s x y).1 vf 1#8 else (displayXor s x y).1 := by
  unfold blitPixel
  cases h : pixel s x y <;> simp [displayXor, h]

/-! ### What a draw leaves -/

/-- `t` is `s` with the pixels of `set` toggled, and VF = 1 if one of them had been lit. -/
structure Blit (s t : State) (set : Nat → Nat → Prop) : Prop where
  frame : t = { s with v := t.v, fb := t.fb }
  pix : ∀ px py, px < 64 → py < 32 → (set px py → pixel t px py = !pixel s px py) ∧
      (¬ set px py → pixel t px py = pixel s px py)
  hit : (∃ px py, px < 64 ∧ py < 32 ∧ set px py ∧ pixel s px py = true) → getV t vf = 1#8
  miss : (¬ ∃ px py, px < 64 ∧ py < 32 ∧ set px py ∧ pixel s px py = true) → getV t vf = getV s vf
  regs : ∀ r, r ≠ vf → getV t r = getV s r

theorem Blit.refl (s : State) : Blit s s (fun _ _ => False) :=
  ⟨rfl, fun _ _ _ _ => ⟨False.elim, fun _ => rfl⟩, by simp, fun _ => rfl, fun _ _ => rfl⟩

theorem Blit.congr {s t : State} {A B : Nat → Nat → Prop} (h : Blit s t A) (hab : ∀ px py, px < 64 → py < 32 →
    (A px py ↔ B px py)) : Blit s t B :=
  ⟨h.frame, fun px py h1 h2 => ⟨fun hb => (h.pix px py h1 h2).1 ((hab px py h1 h2).2 hb),
      fun hb => (h.pix px py h1 h2).2 (fun ha => hb ((hab px py h1 h2).1 ha))⟩,
   fun ⟨px, py, h1, h2, h3, h4⟩ => h.hit ⟨px, py, h1, h2, (hab px py h1 h2).2 h3, h4⟩,
   fun hn => h.miss (fun ⟨px, py, h1, h2, h3, h4⟩ => hn ⟨px, py, h1, h2, (hab px py h1 h2).1 h3, h4⟩), h.regs⟩

theorem Blit.trans {s t u : State} {A B : Nat → Nat → Prop} (h1 : Blit s t A) (h2 : Blit t u B)
    (hd : ∀ px py, px < 64 → py < 32 → A px py → B px py → False) : Blit s u (fun px py => A px py ∨ B px py) := by
  refine ⟨?_, ?_, ?_, ?_, ?_⟩
  · rw [h2.frame, h1.frame]
  · intro px py hx hy
    refine ⟨?_, ?_⟩
    · rintro (ha | hb)
      · rw [(h2.pix px py hx hy).2 (fun hb => hd px py hx hy ha hb), (h1.pix px py hx hy).1 ha]
      · rw [(h2.pix px py hx hy).1 hb, (h1.pix px py hx hy).2 (fun ha => hd px py hx hy ha hb)]
    · intro hn
      rw [(h2.pix px py hx hy).2 (fun hb => hn (.inr hb)), (h1.pix px py hx hy).2 (fun ha => hn (.inl ha))]
  · rintro ⟨px, py, hx, hy, hab, hp⟩
    by_cases h3 : ∃ px py, px < 64 ∧ py < 32 ∧ B px py ∧ pixel t px py = true
    · exact h2.hit h3
    · rw [h2.miss h3]
      apply h1.hit
      rcases hab with ha | hb
      · exact ⟨px, py, hx, hy, ha, hp⟩
      · exact absurd ⟨px, py, hx, hy, hb, by rw [(h1.pix px py hx hy).2 (fun ha => hd px py hx hy ha hb)]; exact hp⟩ h3
  · intro hn
    rw [h2.miss, h1.miss]
    · rintro ⟨px, py, hx, hy, ha, hp⟩; exact hn ⟨px, py, hx, hy, .inl ha, hp⟩
    · rintro ⟨px, py, hx, hy, hb, hp⟩
      exact hn ⟨px, py, hx, hy, .inr hb, by rw [← (h1.pix px py hx hy).2 (fun ha => hd px py hx hy ha hb)]; exact hp⟩
  · intro r hr; rw [h2.regs r hr, h1.regs r hr]

theorem Blit.pixel1 (s : State) (x y : Nat) : Blit s (blitPixel s x y) (fun px py => px = x % 64 ∧ py = y % 32) := by
  rw [blitPixel_eq]
  have hp : ∀ t : State, t.fb = (displayXor s x y).1.fb → ∀ px py, px < 64 → py < 32 →
      ((px = x % 64 ∧ py = y % 32) → pixel t px py = !pixel s px py) ∧ (¬(px = x % 64 ∧
          py = y % 32) → pixel t px py = pixel s px py) := by
    intro t ht px py hx hy
    rw [pixel_congr ht, pixel_xor, Nat.mod_eq_of_lt hx, Nat.mod_eq_of_lt hy]
    exact ⟨fun h => if_pos h, fun h => if_neg h⟩
  have hex : (∃ px py, px < 64 ∧ py < 32 ∧ (px = x % 64 ∧ py = y % 32) ∧
      pixel s px py = true) ↔ pixel s x y = true := by
    constructor
    · rintro ⟨px, py, _, _, ⟨rfl, rfl⟩, h⟩; rwa [pixel_wrap] at h
    · intro h; exact ⟨x % 64, y % 32, Nat.mod_lt _ (by decide), Nat.mod_lt _ (by decide), ⟨rfl, rfl⟩,
        by rwa [pixel_wrap]⟩
  by_cases h : pixel s x y = true
  · rw [if_pos h]
    refine ⟨rfl, hp _ rfl, fun _ => getV_setV_self _ _ _, fun hn => absurd (hex.2 h) hn, fun r hr => ?_⟩
    rw [getV_setV_of_ne _ _ hr]; rfl
  · rw [if_neg h]
    exact ⟨rfl, hp _ rfl, fun hh => absurd (hex.1 hh) h, fun _ => rfl, fun r hr => rfl⟩

theorem Blit.cols (k : Nat) : ∀ (s : State) (x y : Nat) (b : Byte) (c : Nat), c + k ≤ 8 →
    Blit s (blitCols s x y b c k) (fun px py => ∃ j, c ≤ j ∧ j < c + k ∧ b.getLsbD (7 - j) = true ∧
        px = (x + j) % 64 ∧ py = y % 32) := by
  induction k with
  | zero => intro s x y b c _; exact (Blit.refl s).congr (fun px py _ _ => ⟨False.elim, fun ⟨j, h1, h2, _⟩ => by omega⟩)
  | succ k ih =>
    intro s x y b c hc
    rw [blitCols]
    have h2 := ih (if b.getLsbD (7 - c) then blitPixel s (x + c) y else s) x y b (c + 1) (by omega)
    by_cases hb : b.getLsbD (7 - c) = true
    · rw [if_pos hb] at h2 ⊢
      refine ((Blit.pixel1 s (x + c) y).trans h2 ?_).congr ?_
      · rintro px py _ _ ⟨h3, _⟩ ⟨j, hj1, hj2, _, h4, _⟩; omega
      · intro px py hx hy
        constructor
        · rintro (⟨h3, h4⟩ | ⟨j, hj1, hj2, hj3, hj4⟩)
          · exact ⟨c, by omega, by omega, hb, h3, h4⟩
          · exact ⟨j, by omega, by omega, hj3, hj4⟩
        · rintro ⟨j, hj1, hj2, hj3, hj4⟩
          by_cases hjc : j = c
          · subst hjc; exact .inl hj4
          · exact .inr ⟨j, by omega, by omega, hj3, hj4⟩
    · rw [if_neg hb] at h2 ⊢
      refine h2.congr ?_
      intro px py hx hy
      constructor
      · rintro ⟨j, hj1, hj2, hj3, hj4⟩; exact ⟨j, by omega, by omega, hj3, hj4⟩
      · rintro ⟨j, hj1, hj2, hj3, hj4⟩
        exact ⟨j, by rcases Nat.lt_or_ge c j with h | h; exact h; exact absurd (by rwa [show j =
            c by omega] at hj3) hb, by omega, hj3, hj4⟩

/-- The pixels at which rows `r` to `r + m - 1` of the sprite at I have a 1, drawn from (x0, y0). -/
def RowSet (s : State) (x0 y0 r m px py : Nat) : Prop :=
  ∃ j c, r ≤ j ∧ j < r + m ∧ c < 8 ∧ spriteBit s j c ∧ px = (x0 + c) % 64 ∧ py = (y0 + j) % 32

theorem Blit.mem {s t : State} {A} (h : Blit s t A) : t.mem = s.mem ∧ t.index = s.index := by
  have := h.frame; rw [this]; exact ⟨rfl, rfl⟩

theorem spriteBit_congr {s t : State} (h : t.mem = s.mem ∧ t.index = s.index) (r c : Nat) : spriteBit t r c ↔
    spriteBit s r c := by
  simp only [spriteBit, memRead, h.1, h.2]

/-- A draw all of whose rows exist. -/
theorem Blit.rows (k : Nat) : ∀ (s : State) (x y r : Nat), r + k ≤ 15 → (k = 0 ∨ s.index.toNat + r + k ≤ 4096) →
    Blit s (blitRows s x y r k) (RowSet s x y r k) := by
  induction k with
  | zero => intro s x y r _ _; exact (Blit.refl s).congr (fun px py _ _ => ⟨False.elim, fun ⟨j, c, h1, h2,
      _⟩ => by omega⟩)
  | succ k ih =>
    intro s x y r hr hm
    have ha : s.index.toNat + r < memSize := by simp only [memSize]; omega
    rw [blitRows, memRead_of_lt s ha]
    simp only []
    have h1 := Blit.cols 8 s x (y + r) (Memory.get s.mem (s.index.toNat + r)) 0 (by omega)
    have h2 := ih (blitCols s x (y + r) (Memory.get s.mem (s.index.toNat + r)) 0 8) x y (r + 1) (by omega) (by rw [h1.mem.2]; omega)
    have hsb : ∀ c, spriteBit s r c ↔ (Memory.get s.mem (s.index.toNat + r)).getLsbD (7 - c) = true := by
      intro c; simp [spriteBit, memRead_of_lt s ha]
    refine (h1.trans h2 ?_).congr ?_
    · rintro px py _ _ ⟨j, _, hj2, _, h3, h4⟩ ⟨j', c', h5, h6, h7, h8, h9, h10⟩; omega
    · intro px py hx hy
      constructor
      · rintro (⟨j, _, hj2, hj3, h3, h4⟩ | ⟨j, c, h3, h4, h5, h6, h7⟩)
        · exact ⟨r, j, by omega, by omega, by omega, (hsb j).2 hj3, h3, h4⟩
        · exact ⟨j, c, by omega, by omega, h5, (spriteBit_congr h1.mem _ _).1 h6, h7⟩
      · rintro ⟨j, c, h3, h4, h5, h6, h7⟩
        by_cases hj : j = r
        · subst hj; exact .inl ⟨c, by omega, by omega, (hsb c).1 h6, h7⟩
        · exact .inr ⟨j, c, by omega, by omega, h5, (spriteBit_congr h1.mem _ _).2 h6, h7⟩

/-- A draw that reaches a row that does not exist: the rows before it, then OutOfBounds. -/
theorem blitRows_over (k : Nat) : ∀ (s : State) (x y r : Nat), 0 < k → memSize < s.index.toNat + r + k →
    blitRows s x y r k = raiseFault (blitRows s x y r (memSize - (s.index.toNat + r))) .outOfBounds := by
  induction k with
  | zero => intro s x y r h; omega
  | succ k ih =>
    intro s x y r _ h
    by_cases ha : s.index.toNat + r < memSize
    · rw [blitRows, memRead_of_lt s ha]
      simp only []
      have h1 := (Blit.cols 8 s x (y + r) (Memory.get s.mem (s.index.toNat + r)) 0 (by omega)).mem.2
      rw [ih _ _ _ _ (by omega) (by rw [h1]; omega)]
      obtain ⟨m, hm⟩ : ∃ m, memSize - (s.index.toNat + r) = m + 1 := ⟨memSize - (s.index.toNat + r) - 1, by omega⟩
      rw [hm, blitRows, memRead_of_lt s ha, h1, show memSize - (s.index.toNat + (r + 1)) = m by omega]
    · rw [blitRows, memRead_of_ge s (by omega), show memSize - (s.index.toNat + r) = 0 by omega]
      rfl

/-- Everything a draw can do. -/
theorem blitRows_cases (s : State) (x y k : Nat) (hk : k ≤ 15) :
    ∃ A, (Blit s (blitRows s x y 0 k) A) ∨
    (∃ u, blitRows s x y 0 k = raiseFault u .outOfBounds ∧ Blit s u A ∧ 0 < k ∧ 4096 < s.index.toNat + k) := by
  by_cases h : k = 0 ∨ s.index.toNat + 0 + k ≤ 4096
  · exact ⟨_, .inl (Blit.rows k s x y 0 (by omega) h)⟩
  · exact ⟨_, .inr ⟨_, blitRows_over k s x y 0 (by omega) (by simp only [memSize]; omega),
      Blit.rows _ s x y 0 (by simp only [memSize]; omega) (by simp only [memSize]; omega), by omega, by omega⟩⟩

/-- A draw in the terms of R99. -/
theorem drawnRows_of_blit {s s0 t : State} {x y m : Nat} (hm : m ≤ 15) (h0 : s0 =
    setV s vf 0#8) (h : Blit s0 t (RowSet s0 x y 0 m)) :
    DrawnRows s t x y m := by
  have hsb : ∀ r c, spriteBit s0 r c ↔ spriteBit s r c := fun r c => spriteBit_congr ⟨by rw [h0]; rfl,
      by rw [h0]; rfl⟩ r c
  have hpx : ∀ a b, pixel s0 a b = pixel s a b := fun a b => pixel_congr (by rw [h0]; rfl) a b
  have hex : (∃ px py, px < 64 ∧ py < 32 ∧ RowSet s0 x y 0 m px py ∧ pixel s0 px py = true) ↔
      (∃ r c, r < m ∧ c < 8 ∧ spriteBit s r c ∧ pixel s (x + c) (y + r) = true) := by
    constructor
    · rintro ⟨px, py, _, _, ⟨j, c, _, h2, h3, h4, rfl, rfl⟩, hp⟩
      exact ⟨j, c, by omega, h3, (hsb _ _).1 h4, by rwa [hpx, pixel_wrap] at hp⟩
    · rintro ⟨j, c, h2, h3, h4, hp⟩
      exact ⟨(x + c) % 64, (y + j) % 32, Nat.mod_lt _ (by decide), Nat.mod_lt _ (by decide), ⟨j, c, by omega,
          by omega, h3, (hsb _ _).2 h4, rfl, rfl⟩, by rwa [hpx, pixel_wrap]⟩
  refine ⟨?_, ?_, ?_, ?_, ?_⟩
  · intro r c hr hc
    have hp := h.pix ((x + c) % 64) ((y + r) % 32) (Nat.mod_lt _ (by decide)) (Nat.mod_lt _ (by decide))
    rw [pixel_wrap, pixel_wrap, hpx] at hp
    refine ⟨fun hs => hp.1 ⟨r, c, by omega, by omega, hc, (hsb _ _).2 hs, rfl, rfl⟩, fun hs => hp.2 ?_⟩
    rintro ⟨j, c', h1, h2, h3, h4, h5, h6⟩
    have e1 : c' = c := by omega
    have e2 : j = r := by omega
    subst e1; subst e2
    exact hs ((hsb _ _).1 h4)
  · intro px py hx hy hn
    rw [← hpx]
    refine (h.pix px py hx hy).2 ?_
    rintro ⟨j, c, _, h2, h3, _, h5⟩
    exact hn j c (by omega) h3 h5
  · intro he; exact h.hit (hex.2 he)
  · intro he; rw [h.miss (fun hh => he (hex.1 hh)), h0, getV_setV_self]
  · intro r hr; rw [h.regs r hr, h0, getV_setV_of_ne _ _ hr]

end Sys2Proof.Machine
end

