-- ==== Sys2Proof/Laws/Exec.lean ====
section
/-! SUPPORT. Everything an instruction can do, said once (`Effect`, `exec_effect`): which fields of the state may differ
after it, which registers keep their value, and where it raises. A proof over all instructions takes `Effect` apart and
unfolds no meaning. -/

namespace Sys2Proof.Machine

/-- What `t` may be after instruction `i` in `s`. -/
def Effect (i : Instr) (s t : State) : Prop :=
  match i with
  | .cls => t = { s with fb := t.fb }
  | .ret =>
      (t = { s with pc := t.pc, sp := t.sp } ∧ 0 < s.sp.val) ∨
      (t = { s with halted := true, faultCause := 2#3 } ∧ s.sp = 0)
  | .call _ =>
      t = { s with pc := t.pc, sp := t.sp, stack := t.stack } ∨
      (t = { s with halted := true, faultCause := 1#3 } ∧ s.sp = 16)
  | .jp _ | .seByte _ _ | .sneByte _ _ | .seReg _ _ | .sneReg _ _ | .jpV0 _ => t = { s with pc := t.pc }
  | .ldByte x _ | .addByte x _ | .ldReg x _ | .orReg x _ | .andReg x _ | .xorReg x _ | .ldVxDt x =>
      t = { s with v := t.v } ∧ ∀ r, r ≠ x → getV t r = getV s r
  | .addReg x _ | .subReg x _ | .shr x _ | .subn x _ | .shl x _ =>
      t = { s with v := t.v } ∧ (∀ r, r ≠ x → r ≠ vf → getV t r = getV s r) ∧
      (x ≠ vf → getV t vf = 0#8 ∨ getV t vf = 1#8)
  | .rnd x _ => t = { s with v := t.v, draws := s.draws + 1 } ∧ ∀ r, r ≠ x → getV t r = getV s r
  | .ldI _ | .addI _ | .ldF _ => t = { s with index := t.index }
  | .drw _ _ n =>
      (t = { s with v := t.v, fb := t.fb } ∨
        (t = { s with v := t.v, fb := t.fb, halted := true, faultCause := 3#3 } ∧ 0 < n.toNat ∧
          4096 < s.index.toNat + n.toNat)) ∧
      (∀ r, r ≠ vf → getV t r = getV s r) ∧ (getV t vf = 0#8 ∨ getV t vf = 1#8)
  | .skp x | .sknp x =>
      t = { s with pc := t.pc } ∨
      (t = { s with halted := true, faultCause := 5#3 } ∧ 16 ≤ (getV s x).toNat)
  | .ldVxK x => (t = { s with v := t.v } ∧ ∀ r, r ≠ x → getV t r = getV s r) ∨ t = { s with pc := t.pc }
  | .ldDtVx _ => t = { s with dt := t.dt }
  | .ldStVx _ => t = { s with st := t.st }
  | .ldB _ =>
      t = { s with mem := t.mem } ∨
      (t = { s with mem := t.mem, halted := true, faultCause := 3#3 } ∧ 4096 ≤ s.index.toNat + 2)
  | .ldMemVx x =>
      t = { s with mem := t.mem } ∨
      (t = { s with mem := t.mem, halted := true, faultCause := 3#3 } ∧ 4096 ≤ s.index.toNat + x.toNat)
  | .ldVxMem x =>
      (t = { s with v := t.v } ∧ ∀ r, x.toNat < r.toNat → getV t r = getV s r) ∨
      (t = { s with v := t.v, halted := true, faultCause := 3#3 } ∧ 4096 ≤ s.index.toNat + x.toNat ∧
        ∀ r, x.toNat < r.toNat → getV t r = getV s r)

theorem drw_effect {x y n : Nibble} {s t : State} (h : exec (.drw x y n) s = .next t) :
    (t = { s with v := t.v, fb := t.fb } ∨
      (t = { s with v := t.v, fb := t.fb, halted := true, faultCause := 3#3 } ∧ 0 < n.toNat ∧
          4096 < s.index.toNat + n.toNat)) ∧
    (∀ r, r ≠ vf → getV t r = getV s r) ∧ (getV t vf = 0#8 ∨ getV t vf = 1#8) := by
  simp only [exec, execDrw, Host.Outcome.next.injEq] at h
  subst h
  have hn := n.isLt
  obtain ⟨A, hb | ⟨u, hu, hb, h1,
      h2⟩⟩ := blitRows_cases (setV s vf 0#8) (getV s x).toNat (getV s y).toNat n.toNat (by omega)
  · refine ⟨.inl ?_, fun r hr => by rw [hb.regs r hr, getV_setV_of_ne _ _ hr], ?_⟩
    · exact hb.frame.trans (by simp [setV])
    · by_cases hx : ∃ px py, px < 64 ∧ py < 32 ∧ A px py ∧ pixel (setV s vf 0#8) px py = true
      · exact .inr (hb.hit hx)
      · exact .inl (by rw [hb.miss hx, getV_setV_self])
  · rw [hu]
    refine ⟨.inr ⟨?_, h1, h2⟩, fun r hr => ?_, ?_⟩
    · rw [hb.frame]; simp [setV, raiseFault, FaultCause.code]
    · show getV u r = _
      rw [hb.regs r hr, getV_setV_of_ne _ _ hr]
    · show getV u vf = _ ∨ getV u vf = _
      by_cases hx : ∃ px py, px < 64 ∧ py < 32 ∧ A px py ∧ pixel (setV s vf 0#8) px py = true
      · exact .inr (hb.hit hx)
      · exact .inl (by rw [hb.miss hx, getV_setV_self])

/-- Every instruction answers a next state, and it is one that `Effect` allows. -/
theorem exec_effect (i : Instr) (s : State) : ∃ t, exec i s = .next t ∧ Effect i s t := by
  cases i with
  | cls => exact ⟨_, rfl, rfl⟩
  | ret =>
    simp only [exec, execRet, pop]
    by_cases h : 0 < s.sp.val
    · rw [dif_pos h]; exact ⟨_, rfl, .inl ⟨rfl, h⟩⟩
    · rw [dif_neg h]; exact ⟨_, rfl, .inr ⟨rfl, Fin.ext (by simp; omega)⟩⟩
  | call nnn =>
    simp only [exec, execCall, push]
    by_cases h : s.sp.val < 16
    · rw [dif_pos h]; exact ⟨_, rfl, .inl rfl⟩
    · rw [dif_neg h]; exact ⟨_, rfl, .inr ⟨rfl, Fin.ext (by have := s.sp.isLt; simp; omega)⟩⟩
  | jp nnn => exact ⟨_, rfl, rfl⟩
  | jpV0 nnn => exact ⟨_, rfl, rfl⟩
  | seByte x nn => exact ⟨_, rfl, skipIf_frame _ _⟩
  | sneByte x nn => exact ⟨_, rfl, skipIf_frame _ _⟩
  | seReg x y => exact ⟨_, rfl, skipIf_frame _ _⟩
  | sneReg x y => exact ⟨_, rfl, skipIf_frame _ _⟩
  | ldByte x nn => exact ⟨_, rfl, setV_frame _ _ _⟩
  | addByte x nn => exact ⟨_, rfl, setV_frame _ _ _⟩
  | ldReg x y => exact ⟨_, rfl, setV_frame _ _ _⟩
  | orReg x y => exact ⟨_, rfl, setV_frame _ _ _⟩
  | andReg x y => exact ⟨_, rfl, setV_frame _ _ _⟩
  | xorReg x y => exact ⟨_, rfl, setV_frame _ _ _⟩
  | ldVxDt x => exact ⟨_, rfl, setV_frame _ _ _⟩
  | addReg x y => exact ⟨_, rfl, write2_frame _ _ _ _⟩
  | subReg x y => exact ⟨_, rfl, write2_frame _ _ _ _⟩
  | shr x y => exact ⟨_, rfl, write2_frame _ _ _ _⟩
  | subn x y => exact ⟨_, rfl, write2_frame _ _ _ _⟩
  | shl x y => exact ⟨_, rfl, write2_frame _ _ _ _⟩
  | rnd x nn => exact ⟨_, rfl, rfl, fun r h => getV_setV_of_ne _ _ h⟩
  | ldI nnn => exact ⟨_, rfl, rfl⟩
  | addI x => exact ⟨_, rfl, rfl⟩
  | ldF x => exact ⟨_, rfl, rfl⟩
  | drw x y n => exact ⟨_, rfl, drw_effect rfl⟩
  | skp x =>
    simp only [exec, execSkp, keyOperand]
    by_cases h : (getV s x).toNat < nKeys
    · rw [if_pos h]; exact ⟨_, rfl, .inl (skipIf_frame _ _)⟩
    · rw [if_neg h]; exact ⟨_, rfl, .inr ⟨rfl, by simp only [nKeys] at h; omega⟩⟩
  | sknp x =>
    simp only [exec, execSknp, keyOperand]
    by_cases h : (getV s x).toNat < nKeys
    · rw [if_pos h]; exact ⟨_, rfl, .inl (skipIf_frame _ _)⟩
    · rw [if_neg h]; exact ⟨_, rfl, .inr ⟨rfl, by simp only [nKeys] at h; omega⟩⟩
  | ldVxK x =>
    simp only [exec, execLdVxK]
    cases firstKey s with
    | some k => exact ⟨_, rfl, .inl (setV_frame _ _ _)⟩
    | none => exact ⟨_, rfl, .inr rfl⟩
  | ldDtVx x => exact ⟨_, rfl, rfl⟩
  | ldStVx x => exact ⟨_, rfl, rfl⟩
  | ldB x =>
    refine ⟨_, rfl, ?_⟩
    rcases storeBytes_cases s s.index.toNat (decimalDigits (getV s x)) with ⟨m, hm, _⟩ | ⟨m, hm, h⟩
    · left; rw [hm]
    · right; rw [hm]; exact ⟨rfl, by simp [decimalDigits] at h; omega⟩
  | ldMemVx x =>
    refine ⟨_, rfl, ?_⟩
    rcases storeBytes_cases s s.index.toNat (regsUpTo s x) with ⟨m, hm, _⟩ | ⟨m, hm, h⟩
    · left; rw [hm]
    · right; rw [hm]; exact ⟨rfl, by simp [regsUpTo] at h; omega⟩
  | ldVxMem x =>
    have hx := x.isLt
    refine ⟨_, rfl, ?_⟩
    rcases loadRegs_cases s s.index.toNat (x.toNat + 1) (by omega) with ⟨h1, h2⟩ | ⟨h1, h2, h3⟩
    · exact .inl ⟨h1, fun r hr => h2 r (by omega)⟩
    · exact .inr ⟨h1, by omega, fun r hr => h3 r (by omega)⟩

/-- The inversion lemma. -/
theorem effect_of_exec {i : Instr} {s t : State} (h : exec i s = .next t) : Effect i s t := by
  obtain ⟨u, hu, hs⟩ := exec_effect i s
  rw [hu] at h; injection h with h; subst h; exact hs

/-- No instruction leaves the canonical form of memory. -/
theorem exec_wf {i : Instr} {s t : State} (h : exec i s = .next t) (hw : Memory.wf s.mem = true) : Memory.wf t.mem =
    true := by
  have hs := effect_of_exec h
  have hm : ∀ {u : State}, u.mem = s.mem → t = u → Memory.wf t.mem = true := fun {u} h1 h2 => by rw [h2, h1]; exact hw
  cases i <;> simp only [Effect] at hs
  case ldB x =>
    simp only [exec, execLdB, Host.Outcome.next.injEq] at h
    rw [← h]; exact wf_storeBytes _ _ _ hw
  case ldMemVx x =>
    simp only [exec, execLdMemVx, Host.Outcome.next.injEq] at h
    rw [← h]; exact wf_storeBytes _ _ _ hw
  case ret => rcases hs with ⟨h, _⟩ | ⟨h, h2⟩ <;> exact (hm (by rfl) h)
  case call => rcases hs with h | ⟨h, h2⟩ <;> exact (hm (by rfl) h)
  case skp => rcases hs with h | ⟨h, h2⟩ <;> exact (hm (by rfl) h)
  case sknp => rcases hs with h | ⟨h, h2⟩ <;> exact (hm (by rfl) h)
  case drw => rcases hs.1 with h | ⟨h, h2⟩ <;> exact (hm (by rfl) h)
  case ldVxK x => rcases hs with ⟨h, _⟩ | h <;> exact (hm (by rfl) h)
  case ldVxMem x => rcases hs with ⟨h, _⟩ | ⟨h, _, h2⟩ <;> exact (hm (by rfl) h)
  all_goals first | exact (hm (by rfl) hs) | exact (hm (by rfl) hs.1)

end Sys2Proof.Machine
end

