-- ==== Sys2Proof/Laws/PerInstr.lean ====
section
/-! SUPPORT. Statements made once per instruction. `Legal`: no instruction's word is in R57's table of the illegal words. -/

namespace Sys2Proof.Laws.Legal

/-- The word of the instruction is well formed (R57). -/
def Statement (i : Instr) : Prop := legalWord (encode i) = true

/-! What R57 asks of a word with each field layout. -/

theorem legal_op_nnn (c : Nibble) (nnn : Addr12) (h : c ∉ [0x0#4, 0x5#4, 0x8#4, 0x9#4, 0xE#4, 0xF#4]) :
    legalWord (c ++ nnn) = true := by
  simp only [List.mem_cons, not_or] at h
  simp [legalWord, op_of_op_nnn, h]

theorem legal_op_x_nn (c x : Nibble) (nn : Byte) (h : c ∉ [0x0#4, 0x5#4, 0x8#4, 0x9#4, 0xE#4, 0xF#4]) :
    legalWord (c ++ x ++ nn) = true := by
  simp only [List.mem_cons, not_or] at h
  simp [legalWord, op_of_op_x_nn, h]

theorem legal_op_x_y_n (c x y n : Nibble) (h : c ∉ [0x0#4, 0x5#4, 0x8#4, 0x9#4, 0xE#4, 0xF#4]) :
    legalWord (c ++ x ++ y ++ n) = true := by
  simp only [List.mem_cons, not_or] at h
  simp [legalWord, op_of_op_x_y_n, h]

theorem legal_8xyn (x y n : Nibble) (h : illegalAluSub.contains n = false) : legalWord (0x8#4 ++ x ++ y ++ n) = true := by
  have hn : (0x8#4 ++ x ++ y ++ n : Word).extractLsb' 0 4 = n := fieldN_of_op_x_y_n 0x8#4 x y n
  simp only [legalWord, op_of_op_x_y_n, hn, h]
  rfl

theorem legal_5xy0 (x y : Nibble) : legalWord (0x5#4 ++ x ++ y ++ 0x0#4) = true := by
  have hn : (0x5#4 ++ x ++ y ++ 0x0#4 : Word).extractLsb' 0 4 = 0x0#4 := fieldN_of_op_x_y_n 0x5#4 x y 0x0#4
  simp only [legalWord, op_of_op_x_y_n, hn]
  rfl

theorem legal_9xy0 (x y : Nibble) : legalWord (0x9#4 ++ x ++ y ++ 0x0#4) = true := by
  have hn : (0x9#4 ++ x ++ y ++ 0x0#4 : Word).extractLsb' 0 4 = 0x0#4 := fieldN_of_op_x_y_n 0x9#4 x y 0x0#4
  simp only [legalWord, op_of_op_x_y_n, hn]
  rfl

theorem legal_exnn (x : Nibble) (nn : Byte) (h : (nn == 0x9E#8 || nn == 0xA1#8) = true) :
    legalWord (0xE#4 ++ x ++ nn) = true := by
  have hn : (0xE#4 ++ x ++ nn : Word).extractLsb' 0 8 = nn := fieldNN_of_op_x_nn 0xE#4 x nn
  simp only [legalWord, op_of_op_x_nn, hn, h]
  rfl

theorem legal_fxnn (x : Nibble) (nn : Byte) (h : legalMiscSub.contains nn = true) : legalWord (0xF#4 ++ x ++ nn) = true := by
  have hn : (0xF#4 ++ x ++ nn : Word).extractLsb' 0 8 = nn := fieldNN_of_op_x_nn 0xF#4 x nn
  simp only [legalWord, op_of_op_x_nn, hn, h]
  rfl

/-! One lemma per instruction. -/

theorem cls : Statement .cls := by unfold Statement; decide
theorem ret : Statement .ret := by unfold Statement; decide
theorem jp (nnn : Addr12) : Statement (.jp nnn) := legal_op_nnn _ nnn (by decide)
theorem call (nnn : Addr12) : Statement (.call nnn) := legal_op_nnn _ nnn (by decide)
theorem seByte (x : Nibble) (nn : Byte) : Statement (.seByte x nn) := legal_op_x_nn _ x nn (by decide)
theorem sneByte (x : Nibble) (nn : Byte) : Statement (.sneByte x nn) := legal_op_x_nn _ x nn (by decide)
theorem seReg (x : Nibble) (y : Nibble) : Statement (.seReg x y) := legal_5xy0 x y
theorem sneReg (x : Nibble) (y : Nibble) : Statement (.sneReg x y) := legal_9xy0 x y
theorem ldByte (x : Nibble) (nn : Byte) : Statement (.ldByte x nn) := legal_op_x_nn _ x nn (by decide)
theorem addByte (x : Nibble) (nn : Byte) : Statement (.addByte x nn) := legal_op_x_nn _ x nn (by decide)
theorem ldReg (x : Nibble) (y : Nibble) : Statement (.ldReg x y) := legal_8xyn x y _ (by decide)
theorem orReg (x : Nibble) (y : Nibble) : Statement (.orReg x y) := legal_8xyn x y _ (by decide)
theorem andReg (x : Nibble) (y : Nibble) : Statement (.andReg x y) := legal_8xyn x y _ (by decide)
theorem xorReg (x : Nibble) (y : Nibble) : Statement (.xorReg x y) := legal_8xyn x y _ (by decide)
theorem addReg (x : Nibble) (y : Nibble) : Statement (.addReg x y) := legal_8xyn x y _ (by decide)
theorem subReg (x : Nibble) (y : Nibble) : Statement (.subReg x y) := legal_8xyn x y _ (by decide)
theorem shr (x : Nibble) (y : Nibble) : Statement (.shr x y) := legal_8xyn x y _ (by decide)
theorem subn (x : Nibble) (y : Nibble) : Statement (.subn x y) := legal_8xyn x y _ (by decide)
theorem shl (x : Nibble) (y : Nibble) : Statement (.shl x y) := legal_8xyn x y _ (by decide)
theorem ldI (nnn : Addr12) : Statement (.ldI nnn) := legal_op_nnn _ nnn (by decide)
theorem jpV0 (nnn : Addr12) : Statement (.jpV0 nnn) := legal_op_nnn _ nnn (by decide)
theorem rnd (x : Nibble) (nn : Byte) : Statement (.rnd x nn) := legal_op_x_nn _ x nn (by decide)
theorem drw (x : Nibble) (y : Nibble) (n : Nibble) : Statement (.drw x y n) := legal_op_x_y_n _ x y n (by decide)
theorem skp (x : Nibble) : Statement (.skp x) := legal_exnn x _ (by decide)
theorem sknp (x : Nibble) : Statement (.sknp x) := legal_exnn x _ (by decide)
theorem ldVxDt (x : Nibble) : Statement (.ldVxDt x) := legal_fxnn x _ (by decide)
theorem ldVxK (x : Nibble) : Statement (.ldVxK x) := legal_fxnn x _ (by decide)
theorem ldDtVx (x : Nibble) : Statement (.ldDtVx x) := legal_fxnn x _ (by decide)
theorem ldStVx (x : Nibble) : Statement (.ldStVx x) := legal_fxnn x _ (by decide)
theorem addI (x : Nibble) : Statement (.addI x) := legal_fxnn x _ (by decide)
theorem ldF (x : Nibble) : Statement (.ldF x) := legal_fxnn x _ (by decide)
theorem ldB (x : Nibble) : Statement (.ldB x) := legal_fxnn x _ (by decide)
theorem ldMemVx (x : Nibble) : Statement (.ldMemVx x) := legal_fxnn x _ (by decide)
theorem ldVxMem (x : Nibble) : Statement (.ldVxMem x) := legal_fxnn x _ (by decide)

end Sys2Proof.Laws.Legal
end

