-- ==== Sys2Proof/Laws/Step.lean ====
section
/-! SUPPORT. Everything a STEP can do, said once (`step_cases`), what KEY_EVENT and LOAD can do, how a sequence of
operations unfolds, and that the memory operations of the host and of `withFetchWord` keep the canonical form. -/

namespace Sys2Proof.Machine

/-- R60, R61, R111: a STEP of a halted core, of one that cannot fetch, of one that fetches an illegal word, and
of one that executes an instruction. -/
theorem step_cases (s : State) :
    (s.halted = true ∧ step s = .fault (.halted s.faultCause)) ∨
    (s.halted = false ∧ fetch s = none ∧ step s = .next (raiseFault s .outOfBounds)) ∨
    (∃ w, s.halted = false ∧ fetch s = some w ∧ decodeWord w = none ∧
        step s = .next (raiseFault (advancePc s) .unknownOpcode)) ∨
    (∃ w i t, s.halted = false ∧ fetch s = some w ∧ decodeWord w = some i ∧ exec i (advancePc s) = .next t ∧
        step s = .next t) := by
  cases hh : s.halted with
  | true => exact .inl ⟨rfl, by simp [step, hh]⟩
  | false =>
    right
    cases hf : fetch s with
    | none => exact .inl ⟨rfl, rfl, by simp [step, hh, hf]⟩
    | some w =>
      right
      cases hd : decodeWord w with
      | none => exact .inl ⟨w, rfl, rfl, hd, by simp [step, hh, hf, hd]⟩
      | some i =>
        obtain ⟨t, ht, _⟩ := exec_effect i (advancePc s)
        exact .inr ⟨w, i, t, rfl, rfl, hd, ht, by simp [step, hh, hf, hd, ht]⟩

/-- A STEP never answers a refusal. -/
theorem step_ne_refused (s : State) (r : Refusal) : step s ≠ .refused r := by
  obtain ⟨_, h⟩ | ⟨_, _, h⟩ | ⟨_, _, _, _, h⟩ | ⟨_, _, _, _, _, _, _, h⟩ := step_cases s <;> rw [h] <;> exact nofun

/-! ### KEY_EVENT and LOAD, said once -/

/-- R111: a halted core keeps its state; the outcome is the free value of log 7. -/
theorem operate_keyEvent_of_halted {s : State} (h : s.halted = true) (k : Byte) (p : Bool) :
    operate s (.keyEvent k p) = (s, .outcome (freeResult (Config.haltedKeyEvent s.faultCause k p))) := by
  simp [operate, keyEvent, keyEventResult, h]

/-- R122: a key that exists. -/
theorem operate_keyEvent_of_lt {s : State} (h : s.halted = false) {k : Byte} (hk : k.toNat < nKeys) (p : Bool) :
    operate s (.keyEvent k p) = ({ s with keys := s.keys.set k.toNat p }, .outcome .ok) := by
  simp [operate, keyEvent, keyEventResult, resultOf, h, hk]

/-- R122: a key that does not. -/
theorem operate_keyEvent_of_ge {s : State} (h : s.halted = false) {k : Byte} (hk : nKeys ≤ k.toNat) (p : Bool) :
    operate s (.keyEvent k p) = (raiseFault s .badKeyIndex, .outcome (.fault FaultCause.badKeyIndex.code)) := by
  simp [operate, keyEvent, keyEventResult, resultOf, h, Nat.not_lt.mpr hk, raiseFault]

/-- R111: a halted core keeps its state; the outcome is the free value of log 7. -/
theorem operate_load_of_halted {s : State} (h : s.halted = true) (a : Word) (bs : List Byte) :
    operate s (.load a bs) = (s, .outcome (freeResult (Config.haltedLoad s.faultCause a bs))) := by
  simp [operate, loadImage, loadResult, h]

/-- R47: bytes that fit. -/
theorem operate_load_of_le {s : State} (h : s.halted = false) {a : Word} {bs : List Byte}
    (hl : a.toNat + bs.length ≤ memSize) :
    operate s (.load a bs) = ({ s with mem := Memory.setMany s.mem a.toNat bs }, .outcome .ok) := by
  simp [operate, loadImage, loadResult, resultOf, h, Nat.not_lt.mpr hl, storeBytes_of_le s hl]

/-- R47: bytes that do not. -/
theorem operate_load_of_gt {s : State} (h : s.halted = false) {a : Word} {bs : List Byte}
    (hl : memSize < a.toNat + bs.length) :
    operate s (.load a bs) = (raiseFault s .outOfBounds, .outcome (.fault FaultCause.outOfBounds.code)) := by
  simp [operate, loadImage, loadResult, resultOf, h, hl, raiseFault]

theorem operateAll_nil (s : State) : operateAll s [] = (s, []) := rfl

theorem operateAll_cons (s : State) (o : Operation) (os : List Operation) :
    operateAll s (o :: os) =
      ((operateAll (operate s o).1 os).1, (operate s o).2 :: (operateAll (operate s o).1 os).2) := rfl

/-! ### The canonical form of memory -/

theorem wf_memWrite {s t : State} {a : Nat} {b : Byte} (h : memWrite s a b = some t) (hw : Memory.wf s.mem = true) :
    Memory.wf t.mem = true := by
  unfold memWrite at h
  split at h
  · injection h with h
    subst h
    exact Memory.wf_set b ‹_› hw
  · simp at h

theorem wf_loadImage (s : State) (a : Word) (bs : List Byte) (hw : Memory.wf s.mem = true) :
    Memory.wf (loadImage s a bs).mem = true := by
  unfold loadImage
  split
  · exact hw
  · split
    · exact hw
    · exact wf_storeBytes s _ bs hw

theorem wf_withFetchWord (s : State) (nbits w : Nat) (hw : Memory.wf s.mem = true) :
    Memory.wf (s.withFetchWord nbits w).mem = true :=
  wf_storeBytes s _ _ hw

end Sys2Proof.Machine
end

