-- ==== Sys2Proof/Tests/Slice0.lean ====
section
/-! SUPPORT. Tests. Expected results come from 95_test_vectors.md (its ids are in the names) or from the rule a comment names,
worked out by hand: the ill-formed words, one word of every row written out bit by bit, single steps, and for every statement
with hypotheses a witness that meets them. -/

namespace Sys2Proof.Tests

open Sys2Proof.Machine

/-- The start state of 95_test_vectors.md's conventions: reset, with its configuration. -/
def base : State := { State.reset with config := { fontBase := 0, shiftSource := .vx, vfWriteOrder := .flagLast } }

/-- `base` with the other two choices of R8 and FONT_BASE = 0x050. -/
def other : State := { State.reset with config := { fontBase := 0x50, shiftSource := .vy, vfWriteOrder := .resultLast } }

/-- `s` with `bs` in memory from `a`. -/
def withBytes (s : State) (a : Nat) (bs : List Byte) : State := { s with mem := (storeBytes s a bs).mem }

/-- One STEP of the word `w` placed at pc. -/
def run (s : State) (w : Nat) : Option State :=
  match step (s.withFetchWord 16 w) with
  | .next t => some t
  | _ => none

/-- Whether the step of `w` leaves what `p` says. -/
def leaves (s : State) (w : Nat) (p : State → Bool) : Bool := (run s w).any p

/-! ### Ill-formed words: one or more for each line of R57's table -/

theorem test_wf_refuses_0NNN : legalWord 0x0000#16 = false ∧ legalWord 0x00E1#16 = false ∧ legalWord 0x0123#16 = false := by decide
theorem test_wf_refuses_5XYN : legalWord 0x5121#16 = false := by decide
theorem test_wf_refuses_8XYN :
    legalWord 0x8008#16 = false ∧ legalWord 0x8009#16 = false ∧ legalWord 0x812A#16 = false ∧ legalWord 0x812B#16 = false ∧
    legalWord 0x812C#16 = false ∧ legalWord 0x812D#16 = false ∧ legalWord 0x800F#16 = false := by decide
theorem test_wf_refuses_9XYN : legalWord 0x9121#16 = false := by decide
theorem test_wf_refuses_EXNN : legalWord 0xE09F#16 = false ∧ legalWord 0xE000#16 = false := by decide
theorem test_wf_refuses_FXNN : legalWord 0xF00B#16 = false ∧ legalWord 0xF0FF#16 = false ∧ legalWord 0xFFFF#16 = false := by decide
theorem test_decode_refuses_by_name : decodeBytes [0x51#8, 0x21#8] = .error (.unknownOpcode 0x5121#16) := by decide
theorem test_decode_refuses_half_a_word : decodeBytes [0x51#8] = .error .truncated := by decide

/-! ### One word of every row of R56, bit by bit: fixed bits from the encoding, then X, Y, N, NN, NNN as chosen -/

theorem test_decode_cls : decodeTableWord 16 0b0000000011100000 = some (.cls) := by decide
theorem test_decode_ret : decodeTableWord 16 0b0000000011101110 = some (.ret) := by decide
theorem test_decode_jp : decodeTableWord 16 0b0001101010111100 = some (.jp 0xABC#12) := by decide
theorem test_decode_call : decodeTableWord 16 0b0010010000000001 = some (.call 0x401#12) := by decide
theorem test_decode_seByte : decodeTableWord 16 0b0011001101000010 = some (.seByte 0x3#4 0x42#8) := by decide
theorem test_decode_sneByte : decodeTableWord 16 0b0100111100000001 = some (.sneByte 0xF#4 0x01#8) := by decide
theorem test_decode_seReg : decodeTableWord 16 0b0101000100100000 = some (.seReg 0x1#4 0x2#4) := by decide
theorem test_decode_sneReg : decodeTableWord 16 0b1001110101000000 = some (.sneReg 0xD#4 0x4#4) := by decide
theorem test_decode_ldByte : decodeTableWord 16 0b0110101000000101 = some (.ldByte 0xA#4 0x05#8) := by decide
theorem test_decode_addByte : decodeTableWord 16 0b0111001010000011 = some (.addByte 0x2#4 0x83#8) := by decide
theorem test_decode_ldReg : decodeTableWord 16 0b1000011110000000 = some (.ldReg 0x7#4 0x8#4) := by decide
theorem test_decode_orReg : decodeTableWord 16 0b1000000100100001 = some (.orReg 0x1#4 0x2#4) := by decide
theorem test_decode_andReg : decodeTableWord 16 0b1000001101000010 = some (.andReg 0x3#4 0x4#4) := by decide
theorem test_decode_xorReg : decodeTableWord 16 0b1000010101100011 = some (.xorReg 0x5#4 0x6#4) := by decide
theorem test_decode_addReg : decodeTableWord 16 0b1000011110000100 = some (.addReg 0x7#4 0x8#4) := by decide
theorem test_decode_subReg : decodeTableWord 16 0b1000100110100101 = some (.subReg 0x9#4 0xA#4) := by decide
theorem test_decode_shr : decodeTableWord 16 0b1000101111000110 = some (.shr 0xB#4 0xC#4) := by decide
theorem test_decode_subn : decodeTableWord 16 0b1000110111100111 = some (.subn 0xD#4 0xE#4) := by decide
theorem test_decode_shl : decodeTableWord 16 0b1000001101001110 = some (.shl 0x3#4 0x4#4) := by decide
theorem test_decode_ldI : decodeTableWord 16 0b1010001100000001 = some (.ldI 0x301#12) := by decide
theorem test_decode_jpV0 : decodeTableWord 16 0b1011111100000001 = some (.jpV0 0xF01#12) := by decide
theorem test_decode_rnd : decodeTableWord 16 0b1100000111110000 = some (.rnd 0x1#4 0xF0#8) := by decide
theorem test_decode_drw : decodeTableWord 16 0b1101000100100101 = some (.drw 0x1#4 0x2#4 0x5#4) := by decide
theorem test_decode_skp : decodeTableWord 16 0b1110010010011110 = some (.skp 0x4#4) := by decide
theorem test_decode_sknp : decodeTableWord 16 0b1110010110100001 = some (.sknp 0x5#4) := by decide
theorem test_decode_ldVxDt : decodeTableWord 16 0b1111001100000111 = some (.ldVxDt 0x3#4) := by decide
theorem test_decode_ldVxK : decodeTableWord 16 0b1111001000001010 = some (.ldVxK 0x2#4) := by decide
theorem test_decode_ldDtVx : decodeTableWord 16 0b1111001100010101 = some (.ldDtVx 0x3#4) := by decide
theorem test_decode_ldStVx : decodeTableWord 16 0b1111001000011000 = some (.ldStVx 0x2#4) := by decide
theorem test_decode_addI : decodeTableWord 16 0b1111010100011110 = some (.addI 0x5#4) := by decide
theorem test_decode_ldF : decodeTableWord 16 0b1111101000101001 = some (.ldF 0xA#4) := by decide
theorem test_decode_ldB : decodeTableWord 16 0b1111010100110011 = some (.ldB 0x5#4) := by decide
theorem test_decode_ldMemVx : decodeTableWord 16 0b1111111101010101 = some (.ldMemVx 0xF#4) := by decide
theorem test_decode_ldVxMem : decodeTableWord 16 0b1111001001100101 = some (.ldVxMem 0x2#4) := by decide

/-! ### Single steps -/

theorem test_cls_DP1 :
    leaves { (setV base 0xF#4 0x07#8) with fb := Vector.replicate 32 (BitVec.allOnes 64) } 0x00E0
      (fun t => t.fb == Vector.replicate 32 0#64 && getV t vf == 0x07#8) = true := by
  decide
theorem test_ret_CF7 :
    leaves { base with sp := 1, pc := 0x0400#16, stack := base.stack.set 0 0x0302#16 } 0x00EE
      (fun t => t.pc == 0x0302#16 && t.sp == 0 && !t.halted) = true := by
  decide
theorem test_ret_CF8 :
    leaves base 0x00EE
      (fun t => t.halted && t.faultCause == 2#3) = true := by
  decide
theorem test_jp_CF2 :
    leaves base 0x1201
      (fun t => t.pc == 0x0201#16) = true := by
  decide
theorem test_call_CF5 :
    leaves { base with sp := 15 } 0x2400
      (fun t => t.stack[15] == 0x0202#16 && t.sp == 16 && t.pc == 0x0400#16 && !t.halted) = true := by
  decide
theorem test_call_CF6 :
    leaves { base with sp := 16 } 0x2400
      (fun t => t.halted && t.faultCause == 1#3 && t.sp == 16 && t.pc == 0x0202#16) = true := by
  decide
theorem test_seByte_CF11 :
    leaves (setV base 0xF#4 0x01#8) 0x3F01
      (fun t => t.pc == 0x0204#16) = true := by
  decide
theorem test_seByte_CF10 :
    leaves (setV base 0x3#4 0x41#8) 0x3342
      (fun t => t.pc == 0x0202#16) = true := by
  decide
theorem test_sneByte_CF12 :
    leaves (setV base 0x3#4 0x41#8) 0x4342
      (fun t => t.pc == 0x0204#16) = true := by
  decide
theorem test_sneByte_CF13 :
    leaves (setV base 0x3#4 0x42#8) 0x4342
      (fun t => t.pc == 0x0202#16) = true := by
  decide
theorem test_seReg_CF15 :
    leaves (setV (setV base 0x1#4 0x07#8) 0x2#4 0x08#8) 0x5120
      (fun t => t.pc == 0x0202#16) = true := by
  decide
theorem test_seReg_CF16 :
    leaves (setV base 0x1#4 0x99#8) 0x5110
      (fun t => t.pc == 0x0204#16) = true := by
  decide
theorem test_sneReg_CF17 :
    leaves (setV (setV base 0x1#4 0x07#8) 0x2#4 0x08#8) 0x9120
      (fun t => t.pc == 0x0204#16) = true := by
  decide
theorem test_sneReg_CF18 :
    leaves (setV base 0x1#4 0x99#8) 0x9110
      (fun t => t.pc == 0x0202#16) = true := by
  decide
theorem test_ldByte_AL2 :
    leaves (setV base 0xF#4 0x01#8) 0x6F80
      (fun t => getV t vf == 0x80#8 && t.pc == 0x0202#16) = true := by
  decide
theorem test_addByte_AL4 :
    leaves (setV (setV base 0x2#4 0xFF#8) 0xF#4 0x07#8) 0x7201
      (fun t => getV t 0x2#4 == 0x00#8 && getV t vf == 0x07#8) = true := by
  decide
theorem test_addByte_AL5 :
    leaves (setV base 0xF#4 0x10#8) 0x7F01
      (fun t => getV t vf == 0x11#8) = true := by
  decide
theorem test_ldReg_AL6 :
    leaves (setV base 0x1#4 0x33#8) 0x8010
      (fun t => getV t 0x0#4 == 0x33#8 && getV t 0x1#4 == 0x33#8) = true := by
  decide
theorem test_orReg_AL7 :
    leaves (setV (setV (setV base 0x0#4 0xF0#8) 0x1#4 0x0F#8) 0xF#4 0x05#8) 0x8011
      (fun t => getV t 0x0#4 == 0xFF#8 && getV t vf == 0x05#8) = true := by
  decide
theorem test_andReg_AL8 :
    leaves (setV (setV (setV base 0x0#4 0xF0#8) 0x1#4 0x3C#8) 0xF#4 0x05#8) 0x8012
      (fun t => getV t 0x0#4 == 0x30#8 && getV t vf == 0x05#8) = true := by
  decide
theorem test_xorReg_AL9 :
    leaves (setV (setV base 0x0#4 0xF0#8) 0x1#4 0x3C#8) 0x8013
      (fun t => getV t 0x0#4 == 0xCC#8) = true := by
  decide
theorem test_xorReg_AL10 :
    leaves (setV base 0x0#4 0x5A#8) 0x8003
      (fun t => getV t 0x0#4 == 0x00#8) = true := by
  decide
theorem test_addReg_AL14 :
    leaves (setV (setV base 0x0#4 0x10#8) 0xF#4 0x01#8) 0x80F4
      (fun t => getV t 0x0#4 == 0x11#8 && getV t vf == 0x00#8) = true := by
  decide
theorem test_addReg_AL15_resultLast :
    leaves (setV (setV other 0xF#4 0xFF#8) 0x1#4 0x01#8) 0x8F14
      (fun t => getV t vf == 0x00#8) = true := by
  decide
theorem test_subReg_AL17 :
    leaves (setV (setV base 0x0#4 0x07#8) 0x1#4 0x07#8) 0x8015
      (fun t => getV t 0x0#4 == 0x00#8 && getV t vf == 0x01#8) = true := by
  decide
theorem test_subReg_AL18_resultLast :
    leaves (setV (setV other 0xF#4 0x05#8) 0x1#4 0x07#8) 0x8F15
      (fun t => getV t vf == 0xFE#8) = true := by
  decide
theorem test_shr_AL22_vx :
    leaves (setV (setV base 0x0#4 0xFF#8) 0x1#4 0x04#8) 0x8016
      (fun t => getV t 0x0#4 == 0x7F#8 && getV t vf == 0x01#8) = true := by
  decide
theorem test_shr_AL22_vy :
    leaves (setV (setV other 0x0#4 0xFF#8) 0x1#4 0x04#8) 0x8016
      (fun t => getV t 0x0#4 == 0x02#8 && getV t vf == 0x00#8) = true := by
  decide
theorem test_subn_AL24 :
    leaves (setV (setV base 0x0#4 0x01#8) 0x1#4 0x03#8) 0x8017
      (fun t => getV t 0x0#4 == 0x02#8 && getV t vf == 0x01#8) = true := by
  decide
theorem test_subn_AL25 :
    leaves (setV (setV base 0x0#4 0x05#8) 0x1#4 0x03#8) 0x8017
      (fun t => getV t 0x0#4 == 0xFE#8 && getV t vf == 0x00#8) = true := by
  decide
theorem test_shl_AL28 :
    leaves (setV base 0x3#4 0x7F#8) 0x830E
      (fun t => getV t 0x3#4 == 0xFE#8 && getV t vf == 0x00#8) = true := by
  decide
theorem test_shl_AL29_vy :
    leaves (setV (setV other 0x0#4 0x00#8) 0x1#4 0x81#8) 0x801E
      (fun t => getV t 0x0#4 == 0x02#8 && getV t vf == 0x01#8) = true := by
  decide
theorem test_ldI_IM1 :
    leaves { base with index := 0xF123#16 } 0xA300
      (fun t => t.index == 0x0300#16) = true := by
  decide
theorem test_jpV0_CF20 :
    leaves (setV base 0x0#4 0xFF#8) 0xBF01
      (fun t => t.pc == 0x1000#16) = true := by
  decide
theorem test_rnd_AL33_draws_one :
    leaves base 0xC200
      (fun t => t.draws == 1 && t.pc == 0x0202#16) = true := by
  decide
theorem test_drw_DP5 :
    leaves { base with index := 0x0300#16, mem := [(0x300, 0xC0#8)], fb := base.fb.set 0 0b10#64 } 0xD011
      (fun t => pixel t 0 0 && !pixel t 1 0 && getV t vf == 0x01#8) = true := by
  decide
theorem test_drw_DP8 :
    leaves { withBytes (setV base 0x1#4 0x1F#8) 0x300 [0x80#8, 0x80#8] with index := 0x0300#16 } 0xD012
      (fun t => fbAt t 0 && fbAt t 1984 && !fbAt t 1 && getV t vf == 0x00#8) = true := by
  decide
theorem test_skp_KT2 :
    leaves { (setV base 0x4#4 0x03#8) with keys := base.keys.set 4 true } 0xE49E
      (fun t => t.pc == 0x0202#16) = true := by
  decide
theorem test_skp_KT3 :
    leaves (setV base 0x4#4 0x10#8) 0xE49E
      (fun t => t.halted && t.faultCause == 5#3) = true := by
  decide
theorem test_sknp_KT4 :
    leaves (setV base 0x4#4 0x03#8) 0xE4A1
      (fun t => t.pc == 0x0204#16) = true := by
  decide
theorem test_sknp_KT6 :
    leaves (setV base 0x4#4 0xFF#8) 0xE4A1
      (fun t => t.halted && t.faultCause == 5#3) = true := by
  decide
theorem test_ldVxDt_KT11 :
    leaves { base with dt := 0x3C#8 } 0xF307
      (fun t => getV t 0x3#4 == 0x3C#8) = true := by
  decide
theorem test_ldVxK_KT7 :
    leaves (setV base 0x2#4 0x77#8) 0xF20A
      (fun t => t.pc == 0x0200#16 && getV t 0x2#4 == 0x77#8) = true := by
  decide
theorem test_ldVxK_KT8 :
    leaves { base with keys := (base.keys.set 5 true).set 9 true } 0xF20A
      (fun t => getV t 0x2#4 == 0x05#8 && t.pc == 0x0202#16) = true := by
  decide
theorem test_ldDtVx_KT12 :
    leaves (setV base 0x3#4 0x3C#8) 0xF315
      (fun t => t.dt == 0x3C#8 && t.st == 0x00#8) = true := by
  decide
theorem test_ldStVx_KT13 :
    leaves (setV base 0x2#4 0x01#8) 0xF218
      (fun t => t.st == 0x01#8 && t.dt == 0x00#8) = true := by
  decide
theorem test_addI_IM3 :
    leaves { (setV base 0x0#4 0x01#8) with index := 0x0FFF#16 } 0xF01E
      (fun t => t.index == 0x1000#16 && getV t vf == 0x00#8) = true := by
  decide
theorem test_addI_IM4 :
    leaves { (setV base 0x0#4 0x02#8) with index := 0xFFFF#16 } 0xF01E
      (fun t => t.index == 0x0001#16) = true := by
  decide
theorem test_ldF_IM6 :
    leaves (setV base 0x0#4 0x1A#8) 0xF029
      (fun t => t.index == 0x0032#16) = true := by
  decide
theorem test_ldF_IM8 :
    leaves (setV other 0x0#4 0x0A#8) 0xF029
      (fun t => t.index == 0x0082#16) = true := by
  decide
theorem test_ldB_IM10 :
    leaves { (setV base 0x0#4 0xFF#8) with index := 0x0300#16 } 0xF033
      (fun t => memRead t 0x300 == some 0x02#8 && memRead t 0x301 == some 0x05#8 && memRead t 0x302 == some 0x05#8) = true := by
  decide
theorem test_ldB_IM13 :
    leaves { (setV base 0x0#4 0x7B#8) with index := 0x0FFE#16 } 0xF033
      (fun t => t.halted && t.faultCause == 3#3 && memRead t 0xFFE == some 0x01#8 && memRead t 0xFFF == some 0x02#8) = true := by
  decide
theorem test_ldMemVx_IM14 :
    leaves { (setV (setV (setV (setV base 0x0#4 0x01#8) 0x1#4 0x02#8) 0x2#4 0x03#8) 0x3#4 0x04#8) with index := 0x0300#16 } 0xF255
      (fun t => memRead t 0x300 == some 0x01#8 && memRead t 0x302 == some 0x03#8 && memRead t 0x303 == some 0x00#8 && t.index == 0x0300#16) = true := by
  decide
theorem test_ldMemVx_IM17 :
    leaves { (setV base 0x0#4 0xAA#8) with index := 0x0FFF#16 } 0xF155
      (fun t => t.halted && t.faultCause == 3#3 && memRead t 0xFFF == some 0xAA#8) = true := by
  decide
theorem test_ldVxMem_IM18 :
    leaves { withBytes (setV base 0x3#4 0x09#8) 0x300 [0x01#8, 0x02#8, 0x03#8, 0x04#8] with index := 0x0300#16 } 0xF265
      (fun t => getV t 0x0#4 == 0x01#8 && getV t 0x2#4 == 0x03#8 && getV t 0x3#4 == 0x09#8 && t.index == 0x0300#16) = true := by
  decide
theorem test_ldVxMem_IM20 :
    leaves { base with index := 0x1000#16 } 0xF065
      (fun t => t.halted && t.faultCause == 3#3) = true := by
  decide

/-! ### Fetch, faults, halt and the host's operations -/

theorem test_fetch_E21_odd_pc :
    leaves { base with pc := 0x0201#16 } 0x6007 (fun t => getV t 0x0#4 == 0x07#8 && t.pc == 0x0203#16) = true := by decide
theorem test_fetch_E22_last_word :
    leaves { base with pc := 0x0FFE#16 } 0x6007 (fun t => getV t 0x0#4 == 0x07#8 && t.pc == 0x1000#16) = true := by decide
theorem test_fetch_E23_out_of_bounds :
    leaves { base with pc := 0x0FFF#16 } 0x0000 (fun t => t.halted && t.faultCause == 3#3 && t.pc == 0x0FFF#16) = true := by
  decide
theorem test_decode_E25_unknown_opcode :
    leaves base 0x0123 (fun t => t.halted && t.faultCause == 4#3 && t.pc == 0x0202#16) = true := by decide
theorem test_halted_FR6 :
    operate { base with halted := true, faultCause := 4#3 } .step =
      ({ base with halted := true, faultCause := 4#3 }, .outcome (.fault 4#3)) := by rfl
theorem test_tick_KT16 : tickTimers { base with dt := 0x05#8, st := 0x02#8 } = ({ base with dt := 0x04#8, st := 0x01#8 }, false) := by
  decide
theorem test_tick_KT17 : (tickTimers { base with st := 0x01#8 }).2 = true ∧ (tickTimers base).2 = false := by decide
theorem test_key_KT19 : (keyEvent base 0x0F#8 true).keys[15] = true := by decide
theorem test_key_KT21 : (keyEvent base 0x10#8 true).faultCause = 5#3 ∧ (keyEvent base 0x10#8 true).keys = base.keys := by decide
theorem test_load_FR2_all_or_nothing :
    (loadImage base 0x0FFF#16 [0x01#8, 0x02#8]).faultCause = 3#3 ∧ (loadImage base 0x0FFF#16 [0x01#8, 0x02#8]).mem = [] := by
  decide
theorem test_reset_FR9 : resetCore { withBytes base 0x050 [0xF0#8] with halted := true, faultCause := 4#3, dt := 0x05#8 } = base := by
  rfl

/-! ### Assembler text, from the listings of 95_test_vectors.md section 3 -/

theorem test_text_P3 :
    (decodeWord 0x6A7B#16).map Instr.text = some "LD VA, 0x7B".toList ∧ (decodeWord 0xA300#16).map Instr.text = some "LD I, 0x300".toList ∧
    (decodeWord 0xFA33#16).map Instr.text = some "LD B, VA".toList ∧ (decodeWord 0xF265#16).map Instr.text = some "LD V2, [I]".toList ∧
    (decodeWord 0x8025#16).map Instr.text = some "SUB V0, V2".toList ∧ (decodeWord 0x120C#16).map Instr.text = some "JP 0x20C".toList := by
  decide

/-! ### Witnesses: for each statement with hypotheses, operands that meet them all, at the ends of their ranges -/

theorem witness_EncodeOfDecodeIsTheWord : decodeWord 0x00E0#16 = some .cls ∧ decodeWord 0xFF65#16 = some (.ldVxMem 0xF#4) := by
  decide

theorem witness_StepRunsTheDecodedInstruction :
    let s := { withBytes base 0xFFE [0x6F#8, 0x07#8] with pc := 0x0FFE#16 }
    s.halted = false ∧ memRead s s.pc.toNat = some 0x6F#8 ∧ memRead s (s.pc.toNat + 1) = some 0x07#8 ∧
      decodeWord (0x6F#8 ++ 0x07#8) = some (.ldByte 0xF#4 0x07#8) := by
  decide

theorem witness_FetchIsBigEndianAndFaultsAtTheTop :
    ({ base with pc := 0x0FFE#16 } : State).pc.toNat < 0x0FFF ∧ 0x0FFF ≤ ({ base with pc := 0x0FFF#16 } : State).pc.toNat ∧
      ({ base with pc := 0x0FFF#16 } : State).halted = false := by
  decide

theorem witness_IllegalWordRaisesUnknownOpcode :
    let s := withBytes base 0x200 [0x01#8, 0x23#8]
    s.halted = false ∧ fetch s = some 0x0123#16 ∧ legalWord 0x0123#16 = false := by
  decide

theorem witness_HaltedCoreOnlyAnswersUntilReset : ({ base with halted := true, faultCause := 5#3 } : State).halted = true := by
  decide

theorem witness_RetPopsPc :
    ({ base with sp := 1 } : State).sp = (0 : Fin 16).succ ∧ ({ base with sp := 16 } : State).sp = (15 : Fin 16).succ ∧
      base.sp = 0 := by
  decide

theorem witness_CallPushesTheReturnAddress :
    base.sp = (0 : Fin 16).castSucc ∧ ({ base with sp := 15 } : State).sp = (15 : Fin 16).castSucc ∧
      ({ base with sp := 16 } : State).sp = 16 := by
  decide

theorem witness_ShiftsWriteResultAndShiftedOutBit :
    (0x81#8 = if (setV base 0x3#4 0x81#8).config.shiftSource = .vx then getV (setV base 0x3#4 0x81#8) 0x3#4
      else getV (setV base 0x3#4 0x81#8) 0x4#4) ∧
    (0x81#8 = if (setV other 0x4#4 0x81#8).config.shiftSource = .vx then getV (setV other 0x4#4 0x81#8) 0x3#4
      else getV (setV other 0x4#4 0x81#8) 0x4#4) := by
  decide

theorem witness_RndMasksOneDraw : ∃ t, exec (.rnd 0xF#4 0x00#8) base = .next t := ⟨_, rfl⟩

theorem witness_StoreBcdWritesThreeDigits :
    let s := { setV base 0xF#4 0xFF#8 with index := 0x0FFD#16 }
    let u := { setV base 0xF#4 0xFF#8 with index := 0x0FFE#16 }
    Memory.wf s.mem = true ∧ (getV s 0xF#4).toNat = 100 * 2 + 10 * 5 + 5 ∧ 5 < 10 ∧ s.index.toNat + 2 < 4096 ∧
      Memory.wf u.mem = true ∧ (getV u 0xF#4).toNat = 100 * 2 + 10 * 5 + 5 ∧ 4096 ≤ u.index.toNat + 2 := by
  decide

theorem witness_StoreRegistersWritesV0ToVx :
    Memory.wf base.mem = true ∧ ({ base with index := 0x0FF0#16 } : State).index.toNat + (0xF#4).toNat < 4096 ∧
      4096 ≤ ({ base with index := 0x0FF1#16 } : State).index.toNat + (0xF#4).toNat := by
  decide

theorem witness_LoadRegistersReadsV0ToVx :
    ({ base with index := 0x0FF0#16 } : State).index.toNat + (0xF#4).toNat < 4096 ∧
      4096 ≤ ({ base with index := 0x0FF1#16 } : State).index.toNat + (0xF#4).toNat := by
  decide

theorem witness_DrwBlitsTheSprite :
    ({ base with index := 0x0FF1#16 } : State).index.toNat + (0xF#4).toNat ≤ 4096 ∧
      0xF#4 ≠ 0x0#4 ∧ 4096 < ({ base with index := 0x0FF2#16 } : State).index.toNat + (0xF#4).toNat := by
  decide

theorem witness_OneDrawNeverTogglesAPixelTwice : 7 < 8 ∧ 0 < 8 ∧ 14 < 15 ∧ 0 < 15 ∧ ¬(7 = 0 ∧ 14 = 0) := by decide

/-- One row, 0xFF, in memory at I. -/
theorem witness_DrawingTwiceRestoresTheDisplay :
    let s := { withBytes base 0x300 [0xFF#8] with index := 0x0300#16 }
    0x0#4 ≠ vf ∧ 0xE#4 ≠ vf ∧ s.index.toNat + (0x1#4).toNat ≤ 4096 ∧
      ∃ t u, exec (.drw 0x0#4 0xE#4 0x1#4) s = .next t ∧ exec (.drw 0x0#4 0xE#4 0x1#4) t = .next u :=
  ⟨by decide, by decide, by decide, _, _, rfl, rfl⟩

theorem witness_KeySkips :
    (getV base 0x0#4).toNat = (0 : Fin 16).val ∧ (getV (setV base 0x0#4 0x0F#8) 0x0#4).toNat = (15 : Fin 16).val ∧
      16 ≤ (getV (setV base 0x0#4 0x10#8) 0x0#4).toNat := by
  decide

theorem witness_WaitForKeyLatchesTheLowestKey :
    let s := { base with keys := base.keys.set 15 true }
    let u := { base with keys := base.keys.set 0 true }
    (s.keys[(15 : Fin 16)] = true ∧ ∀ j : Fin 16, j < 15 → s.keys[j] = false) ∧
      (u.keys[(0 : Fin 16)] = true ∧ ∀ j : Fin 16, j < 0 → u.keys[j] = false) ∧ ∀ j : Fin 16, base.keys[j] = false := by
  decide

theorem witness_WaitingForAKeyChangesNothing :
    let s := withBytes base 0x200 [0xFA#8, 0x0A#8]
    s.halted = false ∧ fetch s = some (0xF#4 ++ 0xA#4 ++ 0x0A#8) ∧ ∀ j : Fin 16, s.keys[j] = false := by
  decide

theorem witness_RegistersChangeOnlyAsDestinationOrFlag :
    (∃ t, exec (.ldByte 0x3#4 0x05#8) base = .next t ∧ getV t 0x3#4 ≠ getV base 0x3#4) ∧
      Instr.writesFlag (.addReg 0x0#4 0x1#4) = true ∧ Instr.hasDestination (.addReg 0x0#4 0x1#4) vf = false :=
  ⟨⟨_, rfl, by decide⟩, by decide, by decide⟩

theorem witness_MemoryChangesOnlyByStores :
    let s := { setV base 0x0#4 0xFF#8 with index := 0x0300#16 }
    Memory.wf s.mem = true ∧
      (∃ t, exec (.ldB 0x0#4) s = .next t ∧ memRead t 0x302 ≠ memRead s 0x302) ∧
      ∃ t, exec (.ldMemVx 0x0#4) s = .next t ∧ memRead t 0x300 ≠ memRead s 0x300 :=
  ⟨by decide, ⟨_, rfl, by decide⟩, _, rfl, by decide⟩

theorem witness_OtherStateHasOnlyItsWriters :
    let s := { setV base 0x0#4 0x05#8 with fb := base.fb.set 0 1#64, stack := base.stack.set 0 0x0300#16 }
    (∃ t, exec (.ldI 0x300#12) s = .next t ∧ t.index ≠ s.index) ∧ (∃ t, exec (.ldDtVx 0x0#4) s = .next t ∧ t.dt ≠ s.dt) ∧
      (∃ t, exec (.ldStVx 0x0#4) s = .next t ∧ t.st ≠ s.st) ∧ (∃ t, exec .cls s = .next t ∧ t.fb ≠ s.fb) ∧
      ∃ t, exec (.call 0x300#12) s = .next t ∧ t.sp ≠ s.sp ∧ t.stack ≠ s.stack :=
  ⟨⟨_, rfl, by decide⟩, ⟨_, rfl, by decide⟩, ⟨_, rfl, by decide⟩, ⟨_, rfl, by decide⟩, _, rfl, by decide, by decide⟩

theorem witness_WriteOrderMattersOnlyForVf :
    Instr.hasDestination (.addReg 0xE#4 0xF#4) vf = false ∧ ∃ t, exec (.addReg 0xE#4 0xF#4) base = .next t :=
  ⟨by decide, _, rfl⟩

theorem witness_NoInstructionReadsTheSoundTimer : ∃ t, exec (.ldVxDt 0x3#4) { base with dt := 0x3C#8 } = .next t := ⟨_, rfl⟩

theorem witness_DisplayIsSeenOnlyThroughTheCollisionFlag :
    (∃ t, exec (.drw 0x0#4 0x1#4 0x1#4) base = .next t) ∧
      (¬∃ x y n, Instr.cls = .drw x y n) ∧ ∃ t, exec .cls base = .next t :=
  ⟨⟨_, rfl⟩, by simp, _, rfl⟩

theorem witness_KeypadIsReadOnlyByKeyInstructions :
    (∀ x, Instr.ldVxDt 0x3#4 ≠ .skp x ∧ Instr.ldVxDt 0x3#4 ≠ .sknp x ∧ Instr.ldVxDt 0x3#4 ≠ .ldVxK x) ∧
      ∃ t, exec (.ldVxDt 0x3#4) base = .next t :=
  ⟨fun _ => ⟨by simp, by simp, by simp⟩, _, rfl⟩

theorem witness_StaleStackEntriesAreUnobservable :
    AgreeBelowSp { base with sp := 1 } { base with sp := 1, stack := base.stack.set 1 0xFFFF#16 } :=
  ⟨rfl, by decide⟩

theorem witness_StackIsLastInFirstOut : base.sp.val + (List.replicate 16 0x0202#16).length = 16 := by decide

theorem witness_ReadAfterWrite : Memory.wf base.mem = true ∧ 4095 < 4096 ∧ 4096 ≤ 4096 := by decide

theorem witness_NextFetchSeesWrittenBytes :
    Memory.wf base.mem = true ∧ fetch base = some 0x0000#16 ∧
      ∃ t u, memWrite base base.pc.toNat 0x60#8 = some t ∧ memWrite t (base.pc.toNat + 1) 0x09#8 = some u :=
  ⟨by decide, by decide, _, _, rfl, rfl⟩

theorem witness_ParkedCoreStaysParked : Parked { withBytes base 0x300 [0x13#8, 0x00#8] with pc := 0x0300#16 } :=
  ⟨rfl, 0x300#12, by decide, by decide⟩

theorem witness_TickTimersCountsDown :
    ({ base with dt := 0xFF#8, st := 0x01#8 } : State).halted = false ∧ ({ base with halted := true } : State).halted = true := by
  decide

theorem witness_OneBeepPerCrossing : ({ base with st := 0xFF#8 } : State).halted = false := by decide

theorem witness_KeyEventSetsOneKey :
    base.halted = false ∧ (0x0F#8).toNat = (15 : Fin 16).val ∧ 16 ≤ (0x10#8).toNat ∧
      ({ base with halted := true } : State).halted = true := by
  decide

theorem witness_LoadIsAllOrNothing :
    Memory.wf base.mem = true ∧ base.halted = false ∧ (0x0FFF#16).toNat + [0xAA#8].length ≤ 4096 ∧
      4096 < (0x0FFF#16).toNat + [0xAA#8, 0xBB#8].length ∧ ({ base with halted := true } : State).halted = true := by
  decide

/-- The ranges of pixel numbers, addresses and coordinates that several statements quantify over, at their last values; and
the last digit of SkipsOnRegisters. -/
theorem witness_ranges : 2047 < 2048 ∧ 4095 < 4096 ∧ 63 < 64 ∧ 31 < 32 ∧ 0xF#4 ≠ 0x0#4 := by decide

/-- ROMs of 2, of 3584 (the largest that fits, R45) and of 3585 bytes, and, beside the short one, the last byte of memory and
the bytes next to a font at 0x000. -/
theorem witness_BootPlacesFontAndRom :
    (List.replicate 80 0xF0#8).length = 80 ∧ [0x00#8, 0xE0#8].length ≤ 3584 ∧
      (List.replicate 3584 0x00#8).length ≤ 3584 ∧ 3584 < (List.replicate 3585 0x00#8).length ∧
      (4095 < 4096 ∧ (4095 < 0 ∨ 0 + 80 ≤ 4095) ∧ (4095 < 0x200 ∨ 0x200 + [0x00#8, 0xE0#8].length ≤ 4095)) ∧
      (80 < 4096 ∧ (80 < 0 ∨ 0 + 80 ≤ 80) ∧ 80 < 0x200) := by
  simp only [List.length_replicate]
  decide

/-- Decision D13's first and last FONT_BASE. -/
theorem test_boot_at_the_bounds :
    bootOps ⟨0, .vx, .flagLast⟩ [] [] = [.load 0x0000#16 [], .load 0x0200#16 []] ∧
      bootOps ⟨432, .vx, .flagLast⟩ [] [] = [.load 0x01B0#16 [], .load 0x0200#16 []] := by
  decide

theorem witness_StepKeepsTheInvariant : Inv base ∧ ∃ t, step (base.withFetchWord 16 0x6A05) = .next t :=
  ⟨by decide, _, rfl⟩

theorem witness_OperationsKeepTheInvariant : Inv base := by decide

theorem witness_OnlyResetLeavesTheHalt :
    ({ base with halted := true, faultCause := 1#3 } : State).halted = true ∧
      Operation.reset ∉ [Operation.step, .tickTimers, .keyEvent 0x00#8 true, .load 0x0200#16 [0x00#8]] := by
  decide

end Sys2Proof.Tests
end

section
/-! SUPPORT. Proofs of the statements about the state: registers, reset values and SNAPSHOT, the stack, what an instruction
may write, the invariant over the host's operations, and two runs that differ in a piece of state nothing reads. -/

namespace Sys2Proof.Machine

/-! ### Registers, reset and SNAPSHOT -/

/-- Settles O15, by what a read after a register write gives. -/
theorem registersAreIndependent : Obligations.RegistersAreIndependent :=
  fun s x r b => ⟨getV_setV s x r b, rfl⟩

/-- Settles O54: each entry of R36's table, and no cell of memory and no pixel set. -/
theorem stateAfterResetIsTheTable : Obligations.StateAfterResetIsTheTable := by
  refine ⟨fun r => ?_, rfl, rfl, rfl, fun k => ?_, rfl, rfl, fun a ha => ?_, fun k _ => ?_, fun k => ?_, rfl, rfl⟩
  · simp [getV, State.reset]
  · simp [State.reset]
  · exact memRead_of_lt State.reset ha
  · simp [fbAt, pixel, State.reset]
  · simp [State.reset]

/-- Settles O57: memory is empty and no cause is recorded. -/
theorem invariantHoldsAtReset : Obligations.InvariantHoldsAtReset :=
  ⟨Memory.wf_reset, by decide, by decide⟩

/-- The pixel number of (x, y) names (x, y) (R26). -/
theorem fbAt_index (s : State) {x y : Nat} (hx : x < 64) : fbAt s (x + 64 * y) = pixel s x y := by
  have hcol : (x + 64 * y) % dispW = x := by simp only [dispW]; omega
  have hrow : (x + 64 * y) / dispW = y := by simp only [dispW]; omega
  rw [fbAt, hcol, hrow]

/-- Byte `k` of the snapshot is pixel `k` of the display (R35). -/
theorem snapshot_getElem? (s : State) {k : Nat} (hk : k < 2048) :
    (snapshot s)[k]? = some (if fbAt s k then 0x01#8 else 0x00#8) := by
  simp [snapshot, dispW, dispH, hk]

/-- Settles O56, byte by byte. -/
theorem snapshotIsTheDisplay : Obligations.SnapshotIsTheDisplay := by
  refine fun s => ⟨snapshot s, rfl, by simp [snapshot, dispW, dispH], fun x y hx hy => ?_⟩
  rw [snapshot_getElem? s (by omega), fbAt_index s hx]

/-! ### The stack -/

/-- One more pop after `n` pops gives one more value, at the end. -/
theorem popMany_succ_last {n : Nat} {t u w : State} {as : List Word} {a : Word}
    (hn : popMany t n = some (as, u)) (hl : pop u = some (a, w)) : popMany t (n + 1) = some (as ++ [a], w) := by
  induction n generalizing t as with
  | zero =>
    obtain ⟨rfl, rfl⟩ : [] = as ∧ t = u := by simpa [popMany] using hn
    simp [popMany, hl]
  | succ n ih =>
    rw [popMany] at hn ⊢
    cases hp : pop t with
    | none => simp [hp] at hn
    | some p =>
      cases hm : popMany p.2 n with
      | none => simp [hp, hm] at hn
      | some q =>
        obtain ⟨rfl, rfl⟩ : p.1 :: q.1 = as ∧ q.2 = u := by simpa [hp, hm] using hn
        simp [ih hm]

/-- Values that fit are all pushed; popping as many gives them in reverse order and leaves SP and the entries below it as
they were before the pushes. -/
theorem popMany_pushAll (ws : List Word) (s : State) (hfit : s.sp.val + ws.length ≤ 16) :
    ∃ t u, pushAll s ws = some t ∧ t.sp.val = s.sp.val + ws.length ∧
      popMany t ws.length = some (ws.reverse, u) ∧ u.sp = s.sp ∧
      ∀ k : Fin 16, k.val < s.sp.val → u.stack[k] = s.stack[k] := by
  induction ws generalizing s with
  | nil => exact ⟨s, s, rfl, rfl, rfl, rfl, fun _ _ => rfl⟩
  | cons a as ih =>
    rw [List.length_cons] at hfit
    have hlt : s.sp.val < 16 := by omega
    obtain ⟨t, u, hpush, htsp, hpop, husp, hbelow⟩ :=
      ih { s with stack := s.stack.set s.sp.val a, sp := ⟨s.sp.val + 1, by omega⟩ }
        (by show s.sp.val + 1 + as.length ≤ 16; omega)
    have husp' : u.sp.val = s.sp.val + 1 := by rw [husp]
    have htop : u.stack[s.sp.val] = a := by
      have := hbelow ⟨s.sp.val, hlt⟩ (Nat.lt_succ_self _)
      simpa using this
    have hlast : pop u = some (a, { u with sp := s.sp }) := by
      simp [pop_of_pos u (by omega), husp', htop]
    refine ⟨t, { u with sp := s.sp }, ?_, ?_, ?_, rfl, fun k hk => ?_⟩
    · rw [pushAll, push_of_lt s a hlt]
      exact hpush
    · rw [htsp, List.length_cons]
      show s.sp.val + 1 + as.length = _
      omega
    · rw [List.length_cons, List.reverse_cons]
      exact popMany_succ_last hpop hlast
    · have := hbelow k (Nat.lt_succ_of_lt hk)
      simpa [Vector.getElem_set, Nat.ne_of_gt hk] using this

/-- Settles O45, by induction on the values pushed. -/
theorem stackIsLastInFirstOut : Obligations.StackIsLastInFirstOut := by
  intro s ws hfit
  obtain ⟨t, u, hpush, htsp, hpop, husp, hbelow⟩ := popMany_pushAll ws s hfit
  exact ⟨t, hpush, htsp, ⟨u, hpop, husp, hbelow⟩, fun hfull a => push_full t a (htsp.trans hfull)⟩

/-! ### RET and CALL -/

theorem exec_ret_of_pos {s : State} (h : 0 < s.sp.val) :
    exec .ret s = .next { s with pc := s.stack[s.sp.val - 1], sp := ⟨s.sp.val - 1, by omega⟩ } := by
  simp [exec, execRet, pop_of_pos s h, setPc]

theorem exec_ret_empty {s : State} (h : s.sp.val = 0) : exec .ret s = .next (raiseFault s .stackUnderflow) := by
  simp [exec, execRet, pop_empty s h]

theorem exec_call_of_lt {s : State} (nnn : Addr12) (h : s.sp.val < 16) :
    exec (.call nnn) s =
      .next { s with pc := zextAddr nnn, stack := s.stack.set s.sp.val s.pc, sp := ⟨s.sp.val + 1, by omega⟩ } := by
  simp [exec, execCall, push_of_lt s _ h, setPc]

theorem exec_call_full {s : State} (nnn : Addr12) (h : s.sp.val = 16) :
    exec (.call nnn) s = .next (raiseFault s .stackOverflow) := by
  simp [exec, execCall, push_full s _ h]

/-! ### What an instruction writes -/

/-- Settles O39, by the frame that `Effect` gives each instruction. -/
theorem otherStateHasOnlyItsWriters : Obligations.OtherStateHasOnlyItsWriters := by
  intro i s t h
  have he := effect_of_exec h
  cases i with
  | ret => obtain ⟨h, -⟩ | ⟨h, -⟩ := he <;> (rw [h]; simp)
  | call nnn => obtain h | ⟨h, -⟩ := he <;> (rw [h]; simp)
  | ldVxMem x => obtain ⟨h, -⟩ | ⟨h, -⟩ := he <;> (rw [h]; simp)
  | ldVxK x => obtain ⟨h, -⟩ | h := he <;> (rw [h]; simp)
  | skp | sknp | ldB | ldMemVx => obtain h | ⟨h, -⟩ := he <;> (rw [h]; simp)
  | drw x y n => obtain ⟨h | ⟨h, -⟩, -⟩ := he <;> (rw [h]; simp)
  | ldByte | addByte | ldReg | orReg | andReg | xorReg | addReg | subReg | shr | subn | shl | ldVxDt | rnd =>
    obtain ⟨h, -⟩ := he
    rw [h]; simp
  | cls | jp | seByte | sneByte | seReg | sneReg | jpV0 | ldI | addI | ldF | ldDtVx | ldStVx =>
    have h : t = _ := he
    rw [h]; simp

theorem exec_keys {i : Instr} {s t : State} (h : exec i s = .next t) : t.keys = s.keys := by
  obtain ⟨-, -, -, -, -, -, hkeys, -⟩ := otherStateHasOnlyItsWriters i s t h
  exact hkeys

theorem exec_config {i : Instr} {s t : State} (h : exec i s = .next t) : t.config = s.config := by
  obtain ⟨-, -, -, -, -, -, -, hconfig, -⟩ := otherStateHasOnlyItsWriters i s t h
  exact hconfig

theorem exec_st {i : Instr} {s t : State} (h : exec i s = .next t) (hi : ∀ x, i ≠ .ldStVx x) : t.st = s.st := by
  obtain ⟨-, -, hst, -⟩ := otherStateHasOnlyItsWriters i s t h
  by_contra hne
  obtain ⟨x, hx⟩ := hst hne
  exact hi x hx

theorem exec_sp_stack {i : Instr} {s t : State} (h : exec i s = .next t) (hret : i ≠ .ret)
    (hcall : ¬∃ nnn, i = .call nnn) : t.sp = s.sp ∧ t.stack = s.stack := by
  obtain ⟨-, -, -, -, hsp, hstack, -⟩ := otherStateHasOnlyItsWriters i s t h
  exact ⟨by_contra fun hne => (hsp hne).elim hret hcall, by_contra fun hne => hcall (hstack hne)⟩

/-- A register that is neither a destination of the instruction nor its flag output keeps its value. -/
theorem getV_of_effect {i : Instr} {s t : State} (he : Effect i s t) {r : Nibble}
    (hd : Instr.hasDestination i r = false) (hf : ¬(r = vf ∧ Instr.writesFlag i = true)) : getV t r = getV s r := by
  cases i with
  | ret => obtain ⟨h, -⟩ | ⟨h, -⟩ := he <;> exact getV_congr (by rw [h]) r
  | call nnn => obtain h | ⟨h, -⟩ := he <;> exact getV_congr (by rw [h]) r
  | skp | sknp | ldB | ldMemVx => obtain h | ⟨h, -⟩ := he <;> exact getV_congr (by rw [h]) r
  | cls | jp | seByte | sneByte | seReg | sneReg | jpV0 | ldI | addI | ldF | ldDtVx | ldStVx =>
    have h : t = _ := he
    exact getV_congr (by rw [h]) r
  | ldByte x | addByte x | ldReg x | orReg x | andReg x | xorReg x | ldVxDt x | rnd x =>
    obtain ⟨-, hother⟩ := he
    exact hother r (by simpa [Instr.hasDestination] using hd)
  | ldVxK x =>
    obtain ⟨-, hother⟩ | h := he
    · exact hother r (by simpa [Instr.hasDestination] using hd)
    · exact getV_congr (by rw [h]) r
  | ldVxMem x =>
    have hr : x.toNat < r.toNat := by simpa [Instr.hasDestination] using hd
    obtain ⟨-, hother⟩ | ⟨-, -, hother⟩ := he <;> exact hother r hr
  | addReg x | subReg x | shr x | subn x | shl x =>
    obtain ⟨-, hother, -⟩ := he
    exact hother r (by simpa [Instr.hasDestination] using hd) (by simpa [Instr.writesFlag] using hf)
  | drw x y n =>
    obtain ⟨-, hother, -⟩ := he
    exact hother r (by simpa [Instr.writesFlag] using hf)

/-- An instruction with a flag leaves 0 or 1 in VF, unless VF is also its destination. -/
theorem flag_of_effect {i : Instr} {s t : State} (he : Effect i s t) (hf : Instr.writesFlag i = true)
    (hd : Instr.hasDestination i vf = false) : getV t vf = 0x00#8 ∨ getV t vf = 0x01#8 := by
  cases i with
  | addReg x | subReg x | shr x | subn x | shl x =>
    obtain ⟨-, -, hflag⟩ := he
    have hx : vf ≠ x := by simpa [Instr.hasDestination] using hd
    exact hflag hx.symm
  | drw x y n =>
    obtain ⟨-, -, hflag⟩ := he
    exact hflag
  | _ => cases hf

/-- Settles O37, by what `Effect` says of the registers of each instruction. -/
theorem registersChangeOnlyAsDestinationOrFlag : Obligations.RegistersChangeOnlyAsDestinationOrFlag := by
  intro i s t r h
  have he := effect_of_exec h
  refine ⟨fun hne => ?_, flag_of_effect he⟩
  by_contra hnot
  rw [not_or, Bool.not_eq_true] at hnot
  exact hne (getV_of_effect he hnot.1 hnot.2)

/-! ### The invariant -/

/-- From `s` to `t` the fault status is left alone, or one of the five causes is raised. -/
def FaultStatusStep (s t : State) : Prop :=
  (t.halted = s.halted ∧ t.faultCause = s.faultCause) ∨ (t.halted = true ∧ ∃ c : FaultCause, t.faultCause = c.code)

theorem FaultStatusStep.kept {s t u : State} (h : t = u) (hh : u.halted = s.halted)
    (hc : u.faultCause = s.faultCause) : FaultStatusStep s t :=
  .inl (by rw [h]; exact ⟨hh, hc⟩)

theorem FaultStatusStep.raised {s t u : State} (h : t = u) (c : FaultCause) (hh : u.halted = true)
    (hc : u.faultCause = c.code) : FaultStatusStep s t :=
  .inr (by rw [h]; exact ⟨hh, c, hc⟩)

theorem faultStatus_of_effect {i : Instr} {s t : State} (he : Effect i s t) : FaultStatusStep s t := by
  cases i with
  | ret =>
    obtain ⟨h, -⟩ | ⟨h, -⟩ := he
    · exact .kept h rfl rfl
    · exact .raised h .stackUnderflow rfl rfl
  | call nnn =>
    obtain h | ⟨h, -⟩ := he
    · exact .kept h rfl rfl
    · exact .raised h .stackOverflow rfl rfl
  | skp | sknp =>
    obtain h | ⟨h, -⟩ := he
    · exact .kept h rfl rfl
    · exact .raised h .badKeyIndex rfl rfl
  | ldB | ldMemVx =>
    obtain h | ⟨h, -⟩ := he
    · exact .kept h rfl rfl
    · exact .raised h .outOfBounds rfl rfl
  | ldVxMem x =>
    obtain ⟨h, -⟩ | ⟨h, -⟩ := he
    · exact .kept h rfl rfl
    · exact .raised h .outOfBounds rfl rfl
  | drw x y n =>
    obtain ⟨h | ⟨h, -⟩, -⟩ := he
    · exact .kept h rfl rfl
    · exact .raised h .outOfBounds rfl rfl
  | ldVxK x => obtain ⟨h, -⟩ | h := he <;> exact .kept h rfl rfl
  | ldByte | addByte | ldReg | orReg | andReg | xorReg | addReg | subReg | shr | subn | shl | ldVxDt | rnd =>
    obtain ⟨h, -⟩ := he
    exact .kept h rfl rfl
  | cls | jp | seByte | sneByte | seReg | sneReg | jpV0 | ldI | addI | ldF | ldDtVx | ldStVx =>
    have h : t = _ := he
    exact .kept h rfl rfl

/-- A halted core that records one of the five causes is in a legal fault status (R108, R109). -/
theorem faultStatusLegal_of_code {t : State} {c : FaultCause} (hh : t.halted = true) (hc : t.faultCause = c.code) :
    FaultStatusLegal t := by
  unfold FaultStatusLegal
  rw [hh, hc]
  cases c <;> decide

theorem inv_raiseFault {s : State} (c : FaultCause) (hw : Memory.wf s.mem = true) : Inv (raiseFault s c) :=
  ⟨hw, faultStatusLegal_of_code rfl rfl⟩

theorem inv_exec {i : Instr} {s t : State} (h : exec i s = .next t) (hi : Inv s) : Inv t := by
  obtain ⟨hw, hs⟩ := hi
  refine ⟨exec_wf h hw, ?_⟩
  obtain ⟨hh, hc⟩ | ⟨hh, c, hc⟩ := faultStatus_of_effect (effect_of_exec h)
  · unfold FaultStatusLegal
    rwa [hh, hc]
  · exact faultStatusLegal_of_code hh hc

/-! ### The host's operations -/

theorem step_of_fetch_none {s : State} (hh : s.halted = false) (hf : fetch s = none) :
    step s = .next (raiseFault s .outOfBounds) := by
  simp [step, hh, hf]

theorem step_of_decode_none {s : State} {w : Word} (hh : s.halted = false) (hf : fetch s = some w)
    (hd : decodeWord w = none) : step s = .next (raiseFault (advancePc s) .unknownOpcode) := by
  simp [step, hh, hf, hd]

theorem step_of_decode_some {s : State} {w : Word} {i : Instr} (hh : s.halted = false) (hf : fetch s = some w)
    (hd : decodeWord w = some i) : step s = exec i (advancePc s) := by
  simp [step, hh, hf, hd]

theorem step_next_of_running {s : State} (h : s.halted = false) : ∃ t, step s = .next t := by
  obtain ⟨hh, -⟩ | ⟨-, -, hs⟩ | ⟨_, -, -, -, hs⟩ | ⟨_, _, t, -, -, -, -, hs⟩ := step_cases s
  · rw [h] at hh
    cases hh
  · exact ⟨_, hs⟩
  · exact ⟨_, hs⟩
  · exact ⟨t, hs⟩

theorem operate_step_of_next {s t : State} (h : step s = .next t) : operate s .step = (t, .outcome (resultOf t)) := by
  simp [operate, h]

theorem operate_step_of_halted {s : State} (h : s.halted = true) :
    operate s .step = (s, .outcome (.fault s.faultCause)) := by
  simp [operate, step, h]

theorem operate_tickTimers_of_halted {s : State} (h : s.halted = true) :
    operate s .tickTimers = (s, .play false) := by
  simp [operate, tickTimers, h]

theorem operate_tickTimers_of_running {s : State} (h : s.halted = false) :
    operate s .tickTimers = ({ s with dt := countdown s.dt, st := countdown s.st }, .play (s.st == 0x01#8)) := by
  simp [operate, tickTimers, h]

/-- R111: in a halted core every operation but RESET leaves the state as it is. -/
theorem operate_state_of_halted {s : State} (h : s.halted = true) {o : Operation} (ho : o ≠ .reset) :
    (operate s o).1 = s := by
  cases o with
  | step => rw [operate_step_of_halted h]
  | tickTimers => rw [operate_tickTimers_of_halted h]
  | keyEvent k p => rw [operate_keyEvent_of_halted h]
  | load a bs => rw [operate_load_of_halted h]
  | reset => exact absurd rfl ho
  | snapshot => rfl
  | status => rfl

/-- What the host's operations keep: the invariant of the state, and the configuration of the core it started as. -/
def KeepsInv (s t : State) : Prop := Inv t ∧ t.config = s.config

theorem step_keepsInv {s t : State} (h : step s = .next t) (hi : Inv s) : KeepsInv s t := by
  have hw : Memory.wf s.mem = true := hi.1
  obtain ⟨-, hs⟩ | ⟨-, -, hs⟩ | ⟨w, -, -, -, hs⟩ | ⟨w, i, u, -, -, -, hx, hs⟩ := step_cases s <;>
    rw [hs] at h <;> cases h
  · exact ⟨inv_raiseFault _ hw, rfl⟩
  · exact ⟨inv_raiseFault _ hw, rfl⟩
  · have hconfig : t.config = (advancePc s).config := exec_config hx
    exact ⟨inv_exec hx hi, hconfig⟩

theorem operate_keepsInv (o : Operation) {s : State} (hi : Inv s) : KeepsInv s (operate s o).1 := by
  have hw : Memory.wf s.mem = true := hi.1
  cases hh : s.halted with
  | true =>
    by_cases ho : o = .reset
    · rw [ho]
      exact ⟨invariantHoldsAtReset, rfl⟩
    · rw [operate_state_of_halted hh ho]
      exact ⟨hi, rfl⟩
  | false =>
    cases o with
    | step =>
      obtain ⟨t, ht⟩ := step_next_of_running hh
      rw [operate_step_of_next ht]
      exact step_keepsInv ht hi
    | tickTimers =>
      rw [operate_tickTimers_of_running hh]
      exact ⟨hi, rfl⟩
    | keyEvent k p =>
      rcases Nat.lt_or_ge k.toNat nKeys with hk | hk
      · rw [operate_keyEvent_of_lt hh hk]
        exact ⟨hi, rfl⟩
      · rw [operate_keyEvent_of_ge hh hk]
        exact ⟨inv_raiseFault _ hw, rfl⟩
    | load a bs =>
      rcases Nat.lt_or_ge memSize (a.toNat + bs.length) with hl | hl
      · rw [operate_load_of_gt hh hl]
        exact ⟨inv_raiseFault _ hw, rfl⟩
      · rw [operate_load_of_le hh hl]
        exact ⟨⟨Memory.wf_setMany hl hw, hi.2⟩, rfl⟩
    | reset => exact ⟨invariantHoldsAtReset, rfl⟩
    | snapshot => exact ⟨hi, rfl⟩
    | status => exact ⟨hi, rfl⟩

/-- Settles O59, by induction on the operations, each of which keeps the invariant and the configuration. -/
theorem operationsKeepTheInvariant : Obligations.OperationsKeepTheInvariant := by
  intro ops
  induction ops with
  | nil => exact fun s hi => ⟨hi, rfl⟩
  | cons o os ih =>
    intro s hi
    obtain ⟨hinv, hconfig⟩ := operate_keepsInv o hi
    obtain ⟨hinv', hconfig'⟩ := ih _ hinv
    exact ⟨hinv', hconfig'.trans hconfig⟩

/-! ### Two runs with other contents in what the instruction does not read -/

/-- What an instruction may be run without seeing: ST, the display, the keypad and the stack entries. -/
@[ext] structure Aside where
  st    : Byte
  fb    : FrameBuffer
  keys  : Vector Bool 16
  stack : Vector Word 16

/-- `s` with other contents in the four pieces of state of `Aside`. -/
def State.withAside (s : State) (c : Aside) : State :=
  { s with st := c.st, fb := c.fb, keys := c.keys, stack := c.stack }

/-- What `s` itself holds in them. -/
def State.aside (s : State) : Aside := ⟨s.st, s.fb, s.keys, s.stack⟩

/-- The two contents agree on what instruction `i` reads of them. -/
structure Aside.SameForReads (i : Instr) (c d : Aside) : Prop where
  stack : i = .ret → c.stack = d.stack
  fb    : (∃ x y n, i = .drw x y n) → c.fb = d.fb
  keys  : (∃ x, i = .skp x ∨ i = .sknp x ∨ i = .ldVxK x) → c.keys = d.keys

/-- Each of the four that was the same in `c` and `c'` before is the same in `d` and `d'` after. -/
structure Aside.Follows (c d c' d' : Aside) : Prop where
  st    : c'.st = c.st → d'.st = d.st
  fb    : c'.fb = c.fb → d'.fb = d.fb
  keys  : c'.keys = c.keys → d'.keys = d.keys
  stack : c'.stack = c.stack → d'.stack = d.stack

theorem Aside.Follows.of_kept {c d : Aside} (h : d = c) (c' : Aside) : Aside.Follows c d c' c' := by
  subst h
  exact ⟨id, id, id, id⟩

/-! ### The shared operations -/

theorem skipIf_withAside (s : State) (c : Aside) (b : Bool) : skipIf (s.withAside c) b = (skipIf s b).withAside c := by
  cases b <;> rfl

theorem skipIf_aside (s : State) (b : Bool) : (skipIf s b).aside = s.aside := by
  cases b <;> rfl

theorem write2_withAside (s : State) (c : Aside) (x : Nibble) (r : Byte) (f : Bool) :
    write2 (s.withAside c) x r f = (write2 s x r f).withAside c := by
  have hconfig : (s.withAside c).config = s.config := rfl
  unfold write2
  rw [hconfig]
  cases s.config.vfWriteOrder <;> rfl

theorem write2_aside (s : State) (x : Nibble) (r : Byte) (f : Bool) : (write2 s x r f).aside = s.aside := by
  simp [State.aside]

theorem storeBytes_withAside (bs : List Byte) (s : State) (c : Aside) (a : Nat) :
    storeBytes (s.withAside c) a bs = (storeBytes s a bs).withAside c := by
  induction bs generalizing s a with
  | nil => rfl
  | cons b bs ih =>
    rcases Nat.lt_or_ge a memSize with ha | ha
    · simp only [storeBytes, memWrite_of_lt _ b ha]
      exact ih { s with mem := Memory.set s.mem a b } (a + 1)
    · simp only [storeBytes, memWrite_of_ge _ b ha]
      rfl

theorem storeBytes_aside (s : State) (a : Nat) (bs : List Byte) : (storeBytes s a bs).aside = s.aside := by
  obtain ⟨m, h, -⟩ | ⟨m, h, -⟩ := storeBytes_cases s a bs <;> (rw [h]; rfl)

theorem memRead_withAside (s : State) (c : Aside) (a : Nat) : memRead (s.withAside c) a = memRead s a := rfl

theorem loadRegs_withAside (k : Nat) (s : State) (c : Aside) (a i : Nat) :
    loadRegs (s.withAside c) a i k = (loadRegs s a i k).withAside c := by
  induction k generalizing s i with
  | zero => rfl
  | succ k ih =>
    simp only [loadRegs, memRead_withAside]
    cases memRead s (a + i) with
    | none => rfl
    | some b => exact ih (setV s (BitVec.ofNat 4 i) b) (i + 1)

theorem loadRegs_aside (s : State) (a k : Nat) (hk : k ≤ 16) : (loadRegs s a 0 k).aside = s.aside := by
  obtain ⟨h, -⟩ | ⟨h, -⟩ := loadRegs_cases s a k hk <;> (rw [h]; rfl)

/-- `s` with what is set aside but its own display. -/
abbrev State.withAsideButFb (s : State) (c : Aside) : State := s.withAside { c with fb := s.fb }

theorem blitPixel_withAside (s : State) (c : Aside) (x y : Nat) :
    blitPixel (s.withAsideButFb c) x y = (blitPixel s x y).withAsideButFb c := by
  have hpixel : pixel (s.withAsideButFb c) x y = pixel s x y := rfl
  rw [blitPixel_eq, blitPixel_eq, hpixel]
  cases pixel s x y <;> rfl

theorem blitCols_withAside (k : Nat) (s : State) (c : Aside) (x y : Nat) (b : Byte) (j : Nat) :
    blitCols (s.withAsideButFb c) x y b j k = (blitCols s x y b j k).withAsideButFb c := by
  induction k generalizing s j with
  | zero => rfl
  | succ k ih =>
    simp only [blitCols, blitPixel_withAside]
    rw [← ih]
    split <;> rfl

theorem blitRows_withAside (k : Nat) (s : State) (c : Aside) (x y r : Nat) :
    blitRows (s.withAsideButFb c) x y r k = (blitRows s x y r k).withAsideButFb c := by
  induction k generalizing s r with
  | zero => rfl
  | succ k ih =>
    have hindex : (s.withAsideButFb c).index = s.index := rfl
    simp only [blitRows, hindex, memRead_withAside]
    cases memRead s (s.index.toNat + r) with
    | none => rfl
    | some b => simp only [blitCols_withAside, ih]

theorem drw_keeps_aside_but_fb {x y n : Nibble} {s t : State} (h : exec (.drw x y n) s = .next t) :
    t.st = s.st ∧ t.keys = s.keys ∧ t.stack = s.stack := by
  obtain ⟨ht | ⟨ht, -⟩, -⟩ := drw_effect h <;> (rw [ht]; exact ⟨rfl, rfl, rfl⟩)

theorem keyOperand_withAside (s : State) (c : Aside) (x : Nibble) : keyOperand (s.withAside c) x = keyOperand s x := rfl

theorem keyDown_withAside {s : State} {c : Aside} (h : c.keys = s.keys) : keyDown (s.withAside c) = keyDown s := by
  funext k
  simp [keyDown, State.withAside, h]

theorem firstKey_withAside {s : State} {c : Aside} (h : c.keys = s.keys) : firstKey (s.withAside c) = firstKey s := by
  rw [firstKey, firstKey, keyDown_withAside h]

/-- An instruction run with other contents in what it does not read does the same to the rest of the state, and what it
leaves in each of the four depends on what was in that one. -/
theorem exec_withAside (i : Instr) (s : State) (c : Aside) (hr : Aside.SameForReads i c s.aside) :
    ∃ t d, exec i s = .next t ∧ exec i (s.withAside c) = .next (t.withAside d) ∧ Aside.Follows s.aside t.aside c d := by
  cases i with
  | cls => exact ⟨_, { c with fb := Vector.replicate 32 0#64 }, rfl, rfl, id, fun _ => rfl, id, id⟩
  | ret =>
    have hstack : c.stack = s.stack := hr.stack rfl
    by_cases h : 0 < s.sp.val
    · refine ⟨_, c, exec_ret_of_pos h, (exec_ret_of_pos (s := s.withAside c) h).trans ?_, .of_kept rfl c⟩
      simp [State.withAside, hstack]
    · have h0 : s.sp.val = 0 := by omega
      exact ⟨_, c, exec_ret_empty h0, exec_ret_empty (s := s.withAside c) h0, .of_kept rfl c⟩
  | call nnn =>
    by_cases h : s.sp.val < 16
    · refine ⟨_, { c with stack := c.stack.set s.sp.val s.pc }, exec_call_of_lt nnn h,
        exec_call_of_lt (s := s.withAside c) nnn h, id, id, id, fun hc => ?_⟩
      simp [State.aside, show c.stack = s.stack from hc]
    · have h16 : s.sp.val = 16 := by omega
      exact ⟨_, c, exec_call_full nnn h16, exec_call_full (s := s.withAside c) nnn h16, .of_kept rfl c⟩
  | jp | jpV0 | ldByte | addByte | ldReg | orReg | andReg | xorReg | ldVxDt | rnd | ldI | addI | ldF | ldDtVx =>
    exact ⟨_, c, rfl, rfl, .of_kept rfl c⟩
  | ldStVx x => exact ⟨_, { c with st := getV s x }, rfl, rfl, fun _ => rfl, id, id, id⟩
  | seByte | sneByte | seReg | sneReg =>
    exact ⟨_, c, rfl, congrArg Host.Outcome.next (skipIf_withAside s c _), .of_kept (skipIf_aside s _) c⟩
  | addReg | subReg | shr | subn | shl =>
    exact ⟨_, c, rfl, congrArg Host.Outcome.next (write2_withAside s c _ _ _), .of_kept (write2_aside s _ _ _) c⟩
  | drw x y n =>
    have hfb : c.fb = s.fb := hr.fb ⟨x, y, n, rfl⟩
    obtain ⟨hst, hkeys, hstack⟩ := drw_keeps_aside_but_fb (t := blitRows (setV s vf 0x00#8) _ _ 0 n.toNat) rfl
    refine ⟨_, { c with fb := (blitRows (setV s vf 0x00#8) (getV s x).toNat (getV s y).toNat 0 n.toNat).fb }, rfl,
      congrArg Host.Outcome.next ?_, fun h => h.trans hst.symm, fun _ => rfl, fun h => h.trans hkeys.symm,
      fun h => h.trans hstack.symm⟩
    rw [show s.withAside c = s.withAsideButFb c by rw [State.withAsideButFb, ← hfb]]
    exact blitRows_withAside _ (setV s vf 0x00#8) c _ _ 0
  | skp x =>
    have hkeys : c.keys = s.keys := hr.keys ⟨x, .inl rfl⟩
    simp only [exec, execSkp, keyOperand_withAside, keyDown_withAside hkeys, skipIf_withAside]
    cases keyOperand s x with
    | some k => exact ⟨_, c, rfl, rfl, .of_kept (skipIf_aside s _) c⟩
    | none => exact ⟨_, c, rfl, rfl, .of_kept rfl c⟩
  | sknp x =>
    have hkeys : c.keys = s.keys := hr.keys ⟨x, .inr (.inl rfl)⟩
    simp only [exec, execSknp, keyOperand_withAside, keyDown_withAside hkeys, skipIf_withAside]
    cases keyOperand s x with
    | some k => exact ⟨_, c, rfl, rfl, .of_kept (skipIf_aside s _) c⟩
    | none => exact ⟨_, c, rfl, rfl, .of_kept rfl c⟩
  | ldVxK x =>
    have hkeys : c.keys = s.keys := hr.keys ⟨x, .inr (.inr rfl)⟩
    simp only [exec, execLdVxK, firstKey_withAside hkeys]
    cases firstKey s with
    | some k => exact ⟨_, c, rfl, rfl, .of_kept rfl c⟩
    | none => exact ⟨_, c, rfl, rfl, .of_kept rfl c⟩
  | ldB | ldMemVx =>
    exact ⟨_, c, rfl, congrArg Host.Outcome.next (storeBytes_withAside _ s c _), .of_kept (storeBytes_aside s _ _) c⟩
  | ldVxMem x =>
    exact ⟨_, c, rfl, congrArg Host.Outcome.next (loadRegs_withAside _ s c _ 0),
      .of_kept (loadRegs_aside s _ _ (by omega)) c⟩

/-- `exec_withAside` for given next states. -/
theorem exec_eq_withAside {i : Instr} {s t : State} {c : Aside} (hr : Aside.SameForReads i c s.aside)
    (h : exec i s = .next t) :
    ∃ d, exec i (s.withAside c) = .next (t.withAside d) ∧ Aside.Follows s.aside t.aside c d := by
  obtain ⟨t', d, ht, hd, hf⟩ := exec_withAside i s c hr
  cases h.symm.trans ht
  exact ⟨d, hd, hf⟩

/-- Settles O41: with ST set aside nothing that an instruction reads is changed, and FX18 overwrites ST. -/
theorem noInstructionReadsTheSoundTimer : Obligations.NoInstructionReadsTheSoundTimer := by
  intro i s t b h
  by_cases hi : ∃ x, i = .ldStVx x
  · obtain ⟨x, rfl⟩ := hi
    cases h
    simp [exec, execLdStVx, setSt, getV]
  · obtain ⟨d, hd, hf⟩ := exec_eq_withAside (c := { s.aside with st := b }) ⟨fun _ => rfl, fun _ => rfl, fun _ => rfl⟩ h
    have hst : d.st = b := exec_st hd (fun x hx => hi ⟨x, hx⟩)
    have hd' : d = { t.aside with st := b } := Aside.ext hst (hf.fb rfl) (hf.keys rfl) (hf.stack rfl)
    subst hd'
    rw [if_neg hi]
    exact hd

/-- Settles O43: the keypad is set aside, which only the three excluded instructions read. -/
theorem keypadIsReadOnlyByKeyInstructions : Obligations.KeypadIsReadOnlyByKeyInstructions := by
  intro i s t k hi h
  have hreads : ¬∃ x, i = .skp x ∨ i = .sknp x ∨ i = .ldVxK x := by
    rintro ⟨x, hx⟩
    obtain ⟨h1, h2, h3⟩ := hi x
    exact hx.elim h1 (Or.elim · h2 h3)
  obtain ⟨d, hd, hf⟩ := exec_eq_withAside (c := { s.aside with keys := k })
    ⟨fun _ => rfl, fun _ => rfl, fun hx => absurd hx hreads⟩ h
  have hkeys : d.keys = k := exec_keys hd
  have hd' : d = { t.aside with keys := k } := Aside.ext (hf.st rfl) (hf.fb rfl) hkeys (hf.stack rfl)
  subst hd'
  exact hd

/-! ### Two runs with different displays -/

/-- The two states differ at most in the registers and the display. -/
def SameButDisplay (s s' : State) : Prop := s' = { s with v := s'.v, fb := s'.fb }

theorem SameButDisplay.symm {s s' : State} (h : SameButDisplay s s') : SameButDisplay s' s := by
  unfold SameButDisplay at h ⊢
  rw [h]

theorem SameButDisplay.trans {s t u : State} (h : SameButDisplay s t) (h' : SameButDisplay t u) :
    SameButDisplay s u := by
  unfold SameButDisplay at h h' ⊢
  rw [h', h]

/-- A sprite is read from memory at I, and a fault of the draw depends on nothing else. -/
theorem SameButDisplay.blitRows (k : Nat) {s s' : State} (h : SameButDisplay s s') (x y r : Nat) :
    SameButDisplay (blitRows s x y r k) (blitRows s' x y r k) := by
  induction k generalizing s s' r with
  | zero => exact h
  | succ k ih =>
    have hindex : s'.index = s.index := by rw [h]
    have hread : memRead s' (s.index.toNat + r) = memRead s (s.index.toNat + r) := memRead_congr (by rw [h]) _
    simp only [Machine.blitRows, hindex, hread]
    cases memRead s (s.index.toNat + r) with
    | none =>
      show raiseFault s' _ = _
      rw [h]
      rfl
    | some b =>
      have hrow (u : State) : SameButDisplay u (blitCols u x (y + r) b 0 8) :=
        (Blit.cols 8 u x (y + r) b 0 (by omega)).frame
      exact ih (((hrow s).symm.trans h).trans (hrow s')) (r + 1)

/-- Settles O42: DXYN by what a sprite reads, every other instruction with the display set aside. -/
theorem displayIsSeenOnlyThroughTheCollisionFlag : Obligations.DisplayIsSeenOnlyThroughTheCollisionFlag := by
  intro i s t f h
  by_cases hi : ∃ x y n, i = .drw x y n
  · obtain ⟨x, y, n, rfl⟩ := hi
    obtain ⟨t', ht', he⟩ := exec_effect (.drw x y n) { s with fb := f }
    refine ⟨t', ht', fun hn => absurd ⟨x, y, n, rfl⟩ hn, ?_, fun r hr => ?_⟩
    · cases h
      cases ht'
      have hclear : SameButDisplay (setV s vf 0x00#8) (setV { s with fb := f } vf 0x00#8) := rfl
      exact hclear.blitRows n.toNat _ _ 0
    · have hleft : getV t' r = getV s r := getV_of_effect he rfl (fun hv => hr hv.1)
      rw [hleft, getV_of_effect (effect_of_exec h) rfl (fun hv => hr hv.1)]
  · obtain ⟨d, hd, hf⟩ := exec_eq_withAside (c := { s.aside with fb := f })
      ⟨fun _ => rfl, fun hx => absurd hx hi, fun _ => rfl⟩ h
    have hd' : d = { t.aside with fb := d.fb } := Aside.ext (hf.st rfl) rfl (hf.keys rfl) (hf.stack rfl)
    have hfb : t.withAside d = { t with fb := d.fb } := by rw [hd']; rfl
    rw [hfb] at hd
    exact ⟨_, hd, fun _ => rfl, rfl, fun _ _ => rfl⟩

/-! ### Two runs with different stack entries at or above SP -/

/-- `s` with other stack entries. -/
def State.withStack (s : State) (k : Vector Word 16) : State := { s with stack := k }

/-- The two stacks agree on the first `n` entries. -/
def SameBelow (n : Nat) (k k' : Vector Word 16) : Prop := ∀ j : Fin 16, j.val < n → k'[j] = k[j]

theorem agreeBelowSp_withStack {s : State} {k : Vector Word 16} (h : SameBelow s.sp.val s.stack k) :
    AgreeBelowSp s (s.withStack k) := ⟨rfl, h⟩

theorem AgreeBelowSp.exists_withStack {s t : State} (h : AgreeBelowSp s t) :
    ∃ k, t = s.withStack k ∧ SameBelow s.sp.val s.stack k := ⟨t.stack, h⟩

/-- The one entry RET reads is below SP, and the one CALL brings below SP it writes. -/
theorem exec_withStack (i : Instr) {s : State} {k : Vector Word 16} (hk : SameBelow s.sp.val s.stack k) :
    ∃ t k', exec i s = .next t ∧ exec i (s.withStack k) = .next (t.withStack k') ∧ SameBelow t.sp.val t.stack k' := by
  by_cases hret : i = .ret
  · subst hret
    by_cases h : 0 < s.sp.val
    · have htop : k[s.sp.val - 1] = s.stack[s.sp.val - 1] := hk ⟨s.sp.val - 1, by omega⟩ (Nat.sub_lt h Nat.one_pos)
      refine ⟨_, k, exec_ret_of_pos h, (exec_ret_of_pos (s := s.withStack k) h).trans ?_,
        fun j hj => hk j (Nat.lt_of_lt_of_le hj (Nat.sub_le _ _))⟩
      simp [State.withStack, htop]
    · have h0 : s.sp.val = 0 := by omega
      exact ⟨_, k, exec_ret_empty h0, exec_ret_empty (s := s.withStack k) h0, hk⟩
  by_cases hcall : ∃ nnn, i = .call nnn
  · obtain ⟨nnn, rfl⟩ := hcall
    by_cases h : s.sp.val < 16
    · refine ⟨_, k.set s.sp.val s.pc, exec_call_of_lt nnn h, exec_call_of_lt (s := s.withStack k) nnn h,
        fun j hj => ?_⟩
      have hj' : j.val < s.sp.val + 1 := hj
      rcases Nat.lt_succ_iff_lt_or_eq.mp hj' with hlt | heq
      · have := hk j hlt
        simpa [Vector.getElem_set, Nat.ne_of_gt hlt] using this
      · simp [heq]
    · have h16 : s.sp.val = 16 := by omega
      exact ⟨_, k, exec_call_full nnn h16, exec_call_full (s := s.withStack k) nnn h16, hk⟩
  · obtain ⟨t, d, ht, hd, hf⟩ := exec_withAside i s { s.aside with stack := k }
      ⟨fun h => absurd h hret, fun _ => rfl, fun _ => rfl⟩
    obtain ⟨hsp, hstack⟩ := exec_sp_stack ht hret hcall
    have hk' : d.stack = k := (exec_sp_stack hd hret hcall).2
    have hd' : d = { t.aside with stack := k } := Aside.ext (hf.st rfl) (hf.fb rfl) (hf.keys rfl) hk'
    subst hd'
    exact ⟨t, k, ht, hd, by rwa [hsp, hstack]⟩

theorem step_withStack {s : State} {k : Vector Word 16} (hk : SameBelow s.sp.val s.stack k) (hh : s.halted = false) :
    ∃ t k', step s = .next t ∧ step (s.withStack k) = .next (t.withStack k') ∧ SameBelow t.sp.val t.stack k' := by
  have hh' : (s.withStack k).halted = false := hh
  have hf' : fetch (s.withStack k) = fetch s := rfl
  cases hf : fetch s with
  | none =>
    rw [hf] at hf'
    exact ⟨_, k, step_of_fetch_none hh hf, step_of_fetch_none hh' hf', hk⟩
  | some w =>
    rw [hf] at hf'
    cases hd : decodeWord w with
    | none => exact ⟨_, k, step_of_decode_none hh hf hd, step_of_decode_none hh' hf' hd, hk⟩
    | some i =>
      rw [step_of_decode_some hh hf hd, step_of_decode_some hh' hf' hd]
      exact exec_withStack i (s := advancePc s) hk

/-- The host's operations give the same response in two states that agree below SP, and leave two such states. -/
theorem operate_withStack (o : Operation) {s : State} {k : Vector Word 16} (hk : SameBelow s.sp.val s.stack k) :
    ∃ t k' r, operate s o = (t, r) ∧ operate (s.withStack k) o = (t.withStack k', r) ∧
      SameBelow t.sp.val t.stack k' := by
  cases hh : s.halted with
  | true =>
    have hh' : (s.withStack k).halted = true := hh
    cases o with
    | step => exact ⟨s, k, _, operate_step_of_halted hh, operate_step_of_halted hh', hk⟩
    | tickTimers => exact ⟨s, k, _, operate_tickTimers_of_halted hh, operate_tickTimers_of_halted hh', hk⟩
    | keyEvent n p => exact ⟨s, k, _, operate_keyEvent_of_halted hh n p, operate_keyEvent_of_halted hh' n p, hk⟩
    | load a bs => exact ⟨s, k, _, operate_load_of_halted hh a bs, operate_load_of_halted hh' a bs, hk⟩
    | reset => exact ⟨resetCore s, (resetCore s).stack, .done, rfl, rfl, fun _ _ => rfl⟩
    | snapshot => exact ⟨s, k, _, rfl, rfl, hk⟩
    | status => exact ⟨s, k, _, rfl, rfl, hk⟩
  | false =>
    have hh' : (s.withStack k).halted = false := hh
    cases o with
    | step =>
      obtain ⟨t, k', hs, hs', hk'⟩ := step_withStack hk hh
      exact ⟨t, k', _, operate_step_of_next hs, operate_step_of_next hs', hk'⟩
    | tickTimers => exact ⟨_, k, _, operate_tickTimers_of_running hh, operate_tickTimers_of_running hh', hk⟩
    | keyEvent n p =>
      rcases Nat.lt_or_ge n.toNat nKeys with hn | hn
      · exact ⟨_, k, _, operate_keyEvent_of_lt hh hn p, operate_keyEvent_of_lt hh' hn p, hk⟩
      · exact ⟨_, k, _, operate_keyEvent_of_ge hh hn p, operate_keyEvent_of_ge hh' hn p, hk⟩
    | load a bs =>
      rcases Nat.lt_or_ge memSize (a.toNat + bs.length) with hl | hl
      · exact ⟨_, k, _, operate_load_of_gt hh hl, operate_load_of_gt hh' hl, hk⟩
      · exact ⟨_, k, _, operate_load_of_le hh hl, operate_load_of_le hh' hl, hk⟩
    | reset => exact ⟨resetCore s, (resetCore s).stack, .done, rfl, rfl, fun _ _ => rfl⟩
    | snapshot => exact ⟨s, k, _, rfl, rfl, hk⟩
    | status => exact ⟨s, k, _, rfl, rfl, hk⟩

/-- Settles O44, by induction on the operations: RET reads an entry below SP, CALL writes the one at SP, and no other
instruction or operation reads or writes a stack entry. -/
theorem staleStackEntriesAreUnobservable : Obligations.StaleStackEntriesAreUnobservable := by
  intro ops
  induction ops with
  | nil => exact fun s t h => ⟨rfl, h⟩
  | cons o os ih =>
    intro s t h
    obtain ⟨k, rfl, hk⟩ := h.exists_withStack
    obtain ⟨u, k', r, hs, ht, hk'⟩ := operate_withStack o hk
    obtain ⟨hresp, hagree⟩ := ih u (u.withStack k') (agreeBelowSp_withStack hk')
    rw [operateAll_cons, operateAll_cons, hs, ht]
    exact ⟨congrArg (r :: ·) hresp, hagree⟩

end Sys2Proof.Machine
end

section
/-! SUPPORT. Proofs of the statements about memory: the invariant over a step, a read after a write, the fetch after a write,
which instructions change a byte, and LOAD. -/

namespace Sys2Proof.Machine

/-- Settles O58: each of the ways a STEP can end (`step_cases`) keeps the invariant. -/
theorem stepKeepsTheInvariant : Obligations.StepKeepsTheInvariant := by
  intro s t hi h
  obtain ⟨hinv, -⟩ := step_keepsInv h hi
  exact hinv

/-! ### A read after a write -/

/-- R39: everything a write that succeeds can do. -/
theorem memWrite_eq_some_iff {s t : State} {a : Nat} {b : Byte} :
    memWrite s a b = some t ↔ a < memSize ∧ t = { s with mem := Memory.set s.mem a b } := by
  rcases Nat.lt_or_ge a memSize with ha | ha
  · rw [memWrite_of_lt s b ha, Option.some.injEq, and_iff_right ha, eq_comm]
  · rw [memWrite_of_ge s b ha]
    exact iff_of_false nofun fun h => Nat.not_lt.mpr ha h.1

/-- R38, R39: a byte written is read back. -/
theorem memRead_memWrite_self {s t : State} {a : Nat} {b : Byte} (hw : Memory.wf s.mem = true)
    (h : memWrite s a b = some t) : memRead t a = some b := by
  obtain ⟨ha, rfl⟩ := memWrite_eq_some_iff.mp h
  rw [memRead_of_lt _ ha, Memory.get_set b a hw, if_pos rfl]

/-- R39: a write leaves every other byte alone. -/
theorem memRead_memWrite_of_ne {s t : State} {a c : Nat} {b : Byte} (hw : Memory.wf s.mem = true)
    (h : memWrite s a b = some t) (hc : c ≠ a) : memRead t c = memRead s c := by
  obtain ⟨-, rfl⟩ := memWrite_eq_some_iff.mp h
  simp only [memRead, Memory.get_set b c hw, if_neg hc]

/-- Settles O46, by what a read after a write gives at the address written and at the others. -/
theorem readAfterWrite : Obligations.ReadAfterWrite := by
  intro s a b hw
  refine ⟨fun ha => ?_, fun ha => ⟨memWrite_of_ge s b ha, memRead_of_ge s ha⟩⟩
  have h := memWrite_of_lt s b ha
  exact ⟨_, h, rfl, wf_memWrite h hw, memRead_memWrite_self hw h, fun _ hc => memRead_memWrite_of_ne hw h hc⟩

/-! ### The fetch after a write -/

theorem memWrite_pc {s t : State} {a : Nat} {b : Byte} (h : memWrite s a b = some t) : t.pc = s.pc := by
  obtain ⟨-, rfl⟩ := memWrite_eq_some_iff.mp h
  rfl

/-- R61, R41: a fetch is two reads, high byte first. -/
theorem fetch_of_memRead {s : State} {hi lo : Byte} (hhi : memRead s s.pc.toNat = some hi)
    (hlo : memRead s (s.pc.toNat + 1) = some lo) : fetch s = some (hi ++ lo) := by
  rw [fetch, hhi, hlo]
  rfl

/-- R61, R41: the byte at pc + 1 is the low half of the word fetched. -/
theorem memRead_succ_pc_of_fetch {s : State} {w : Word} (h : fetch s = some w) :
    memRead s (s.pc.toNat + 1) = some (w.extractLsb' 0 8) := by
  cases hhi : memRead s s.pc.toNat with
  | none => simp [fetch, hhi] at h
  | some hi =>
    cases hlo : memRead s (s.pc.toNat + 1) with
    | none => simp [fetch, hhi, hlo] at h
    | some lo =>
      have hword : hi ++ lo = w := Option.some.inj ((fetch_of_memRead hhi hlo).symm.trans h)
      rw [← hword, BitVec.extractLsb'_append_eq_right]

/-- Settles O47: the fetch is two reads, each after the write to its own address and past the write to the other. -/
theorem nextFetchSeesWrittenBytes : Obligations.NextFetchSeesWrittenBytes := by
  intro s t u b c hw ht hu
  have hpc : t.pc = s.pc := memWrite_pc ht
  have hpc' : u.pc = s.pc := (memWrite_pc hu).trans hpc
  have hwt : Memory.wf t.mem = true := wf_memWrite ht hw
  have hhi : memRead t s.pc.toNat = some b := memRead_memWrite_self hw ht
  constructor
  · apply fetch_of_memRead <;> rw [hpc']
    · exact (memRead_memWrite_of_ne hwt hu (by omega)).trans hhi
    · exact memRead_memWrite_self hwt hu
  · intro w hf
    apply fetch_of_memRead <;> rw [hpc]
    · exact hhi
    · exact (memRead_memWrite_of_ne hw ht (by omega)).trans (memRead_succ_pc_of_fetch hf)

/-! ### Which instructions change a byte -/

/-- R43: only FX33 and FX55 write memory. -/
theorem mem_of_effect {i : Instr} {s t : State} (he : Effect i s t) (hldB : ∀ x, i ≠ .ldB x)
    (hldMemVx : ∀ x, i ≠ .ldMemVx x) : t.mem = s.mem := by
  cases i with
  | ldB x => exact absurd rfl (hldB x)
  | ldMemVx x => exact absurd rfl (hldMemVx x)
  | ret | ldVxMem => obtain ⟨h, -⟩ | ⟨h, -⟩ := he <;> rw [h]
  | call | skp | sknp => obtain h | ⟨h, -⟩ := he <;> rw [h]
  | ldVxK x => obtain ⟨h, -⟩ | h := he <;> rw [h]
  | drw x y n => obtain ⟨h | ⟨h, -⟩, -⟩ := he <;> rw [h]
  | ldByte | addByte | ldReg | orReg | andReg | xorReg | addReg | subReg | shr | subn | shl | ldVxDt | rnd =>
    obtain ⟨h, -⟩ := he
    rw [h]
  | cls | jp | seByte | sneByte | seReg | sneReg | jpV0 | ldI | addI | ldF | ldDtVx | ldStVx =>
    have h : t = _ := he
    rw [h]

/-- R39: a bulk store, also one that faults, leaves the bytes outside its addresses alone. -/
theorem memRead_storeBytes_of_outside {s : State} {a c : Nat} {bs : List Byte} (hw : Memory.wf s.mem = true)
    (hc : c < a ∨ a + bs.length ≤ c) : memRead (storeBytes s a bs) c = memRead s c := by
  by_cases hfit : a + bs.length ≤ memSize
  · obtain ⟨-, -, hother⟩ := storedAt_storeBytes_fit s bs hw a hfit
    exact hother c hc
  · by_cases hnil : bs = []
    · rw [hnil, storeBytes]
    · obtain ⟨-, -, hother⟩ := storedAt_storeBytes_over s bs hw a hnil (by omega)
      exact hother c (by rw [List.length_take]; omega)

theorem mem_range_of_storeBytes_changes {s : State} {a c : Nat} {bs : List Byte} (hw : Memory.wf s.mem = true)
    (hne : memRead (storeBytes s a bs) c ≠ memRead s c) : a ≤ c ∧ c < a + bs.length := by
  by_contra hout
  exact hne (memRead_storeBytes_of_outside hw (by omega))

theorem length_decimalDigits (d : Byte) : (decimalDigits d).length = 3 := rfl

theorem length_regsUpTo (s : State) (x : Nibble) : (regsUpTo s x).length = x.toNat + 1 := by
  simp [regsUpTo]

/-- Settles O38: FX33 and FX55 are bulk stores of three and of x + 1 bytes, and no other instruction writes memory. -/
theorem memoryChangesOnlyByStores : Obligations.MemoryChangesOnlyByStores := by
  intro i s t a hw h hne
  by_cases hldB : ∃ x, i = .ldB x
  · obtain ⟨x, rfl⟩ := hldB
    cases h
    obtain ⟨hlo, hhi⟩ := mem_range_of_storeBytes_changes hw hne
    rw [length_decimalDigits] at hhi
    exact ⟨x, .inl ⟨rfl, hlo, by omega⟩⟩
  by_cases hldMemVx : ∃ x, i = .ldMemVx x
  · obtain ⟨x, rfl⟩ := hldMemVx
    cases h
    obtain ⟨hlo, hhi⟩ := mem_range_of_storeBytes_changes hw hne
    rw [length_regsUpTo] at hhi
    exact ⟨x, .inr ⟨rfl, hlo, by omega⟩⟩
  · have hmem : t.mem = s.mem :=
      mem_of_effect (effect_of_exec h) (fun x hx => hldB ⟨x, hx⟩) (fun x hx => hldMemVx ⟨x, hx⟩)
    exact absurd (memRead_congr hmem a) hne

/-! ### LOAD -/

/-- Settles O52: LOAD stores all its bytes, or raises OutOfBounds with none stored, or finds the core halted. -/
theorem loadIsAllOrNothing : Obligations.LoadIsAllOrNothing := by
  intro s a bs hw
  refine ⟨fun hh hfit => ?_, fun hh hover => ?_, fun hh => ?_⟩
  · exact ⟨_, operate_load_of_le hh hfit, rfl, storedAt_setMany s a.toNat bs hw hfit⟩
  · exact operate_load_of_gt hh hover
  · exact ⟨_, operate_load_of_halted hh a bs⟩

end Sys2Proof.Machine
end

section
/-! SUPPORT. Proofs of the statements about the encoding: the row that a word matches, the encoder as the decoder's
inverse, and the illegal words. -/

namespace Sys2Proof

/-! ### The row of a word -/

/-- Where no two members of a list pass a test, the search finds the one that does. -/
theorem find?_eq_some_iff_mem {α : Type} {p : α → Bool} {a : α} {l : List α}
    (h : l.Pairwise fun a b => ¬(p a = true ∧ p b = true)) : l.find? p = some a ↔ a ∈ l ∧ p a = true := by
  induction l with
  | nil => simp
  | cons b l ih =>
    obtain ⟨hb, hl⟩ := List.pairwise_cons.mp h
    rw [List.find?_cons, List.mem_cons]
    cases hp : p b with
    | true =>
      have hrest : a ∈ l → ¬p a = true := fun ha hpa => hb a ha ⟨hp, hpa⟩
      grind
    | false =>
      rw [ih hl]
      grind

theorem rowMatches_iff (w : Word) (r : OpcodeRow) : rowMatches w r = true ↔ w &&& r.mask = r.pattern := by
  simp [rowMatches]

/-- Two rows that match one word have the same bits under both masks. -/
theorem patterns_agree_of_rowMatches {w : Word} {r q : OpcodeRow} (hr : rowMatches w r = true)
    (hq : rowMatches w q = true) : r.pattern &&& q.mask = q.pattern &&& r.mask := by
  rw [rowMatches_iff] at hr hq
  rw [← hr, ← hq, BitVec.and_assoc, BitVec.and_assoc, BitVec.and_comm r.mask]

/-- R56: any two rows differ in a bit that both masks select. -/
theorem opcodeTable_patterns_differ :
    opcodeTable.Pairwise fun r q => r.pattern &&& q.mask ≠ q.pattern &&& r.mask := by
  decide

/-- R56: no word matches two rows of the table. -/
theorem opcodeTable_disjoint :
    opcodeTable.Pairwise fun r q => ∀ w, ¬(rowMatches w r = true ∧ rowMatches w q = true) :=
  opcodeTable_patterns_differ.imp fun hne _ h => hne (patterns_agree_of_rowMatches h.1 h.2)

/-- R62: decoding gives the instruction that a matching row builds. -/
theorem decodeWord_eq_some_iff (w : Word) (i : Instr) :
    decodeWord w = some i ↔ ∃ r ∈ opcodeTable, w &&& r.mask = r.pattern ∧ r.build w = i := by
  have hdisjoint := opcodeTable_disjoint.imp fun h => h w
  simp [decodeWord, find?_eq_some_iff_mem hdisjoint, rowMatches_iff, and_assoc]

theorem decodeWord_eq_none_iff (w : Word) :
    decodeWord w = none ↔ ∀ r ∈ opcodeTable, w &&& r.mask ≠ r.pattern := by
  simp [decodeWord, rowMatches_iff]

/-- Settles O2: two rows that match one word would agree under both masks, and no two rows of the table do. -/
theorem noTwoOpcodeRowsMatchOneWord : Obligations.NoTwoOpcodeRowsMatchOneWord :=
  ⟨rfl, opcodeTable_disjoint, decodeWord_eq_some_iff⟩

/-! ### The words that a row builds an instruction from, for each field layout -/

section
variable {w p : Word} {c x y n : Nibble} {nn : Byte} {nnn : Addr12}

theorem word_iff_op_nnn (hp : p = c ++ 0#12) :
    w &&& 0xF000#16 = p ∧ fieldNNN w = nnn ↔ c ++ nnn = w := by
  rw [hp, matches_F000]
  constructor
  · rintro ⟨rfl, rfl⟩
    exact word_eq_op_nnn w
  · rintro rfl
    exact ⟨op_of_op_nnn c nnn, fieldNNN_of_op_nnn c nnn⟩

theorem word_iff_op_x_nn (hp : p = c ++ 0#12) :
    w &&& 0xF000#16 = p ∧ fieldX w = x ∧ fieldNN w = nn ↔ c ++ x ++ nn = w := by
  rw [hp, matches_F000]
  constructor
  · rintro ⟨rfl, rfl, rfl⟩
    exact word_eq_op_x_nn w
  · rintro rfl
    exact ⟨op_of_op_x_nn c x nn, fieldX_of_op_x_nn c x nn, fieldNN_of_op_x_nn c x nn⟩

theorem word_iff_op_x_sub (hp : p = c ++ (0#4 ++ nn)) :
    w &&& 0xF0FF#16 = p ∧ fieldX w = x ↔ c ++ x ++ nn = w := by
  rw [hp, matches_F0FF]
  constructor
  · rintro ⟨⟨rfl, rfl⟩, rfl⟩
    exact word_eq_op_x_nn w
  · rintro rfl
    exact ⟨⟨op_of_op_x_nn c x nn, fieldNN_of_op_x_nn c x nn⟩, fieldX_of_op_x_nn c x nn⟩

theorem word_iff_op_x_y_n (hp : p = c ++ 0#12) :
    w &&& 0xF000#16 = p ∧ fieldX w = x ∧ fieldY w = y ∧ fieldN w = n ↔ c ++ x ++ y ++ n = w := by
  rw [hp, matches_F000]
  constructor
  · rintro ⟨rfl, rfl, rfl, rfl⟩
    exact word_eq_op_x_y_n w
  · rintro rfl
    exact ⟨op_of_op_x_y_n c x y n, fieldX_of_op_x_y_n c x y n, fieldY_of_op_x_y_n c x y n, fieldN_of_op_x_y_n c x y n⟩

theorem word_iff_op_x_y_sub (hp : p = c ++ (0#8 ++ n)) :
    w &&& 0xF00F#16 = p ∧ fieldX w = x ∧ fieldY w = y ↔ c ++ x ++ y ++ n = w := by
  rw [hp, matches_F00F]
  constructor
  · rintro ⟨⟨rfl, rfl⟩, rfl, rfl⟩
    exact word_eq_op_x_y_n w
  · rintro rfl
    exact ⟨⟨op_of_op_x_y_n c x y n, fieldN_of_op_x_y_n c x y n⟩, fieldX_of_op_x_y_n c x y n, fieldY_of_op_x_y_n c x y n⟩
end

/-! ### The encoder inverts the decoder -/

/-- R56: decoding a word gives the one instruction that it encodes. In each case a single row of the table can build the
instruction, and its field layout says which words do. -/
theorem decodeWord_eq_some_iff_encode (w : Word) (i : Instr) : decodeWord w = some i ↔ encode i = w := by
  rw [decodeWord_eq_some_iff]
  simp only [opcodeTable, controlRows, aluRows, indexRows, miscRows, List.cons_append, List.nil_append,
    List.exists_mem_cons_iff, List.not_mem_nil, false_and, exists_false]
  cases i <;> simp only [encode, reduceCtorEq, and_false, or_false, false_or, and_true]
  case cls | ret => rw [and_FFFF, eq_comm]
  case jp | call | ldI | jpV0 =>
    simp only [Instr.jp.injEq, Instr.call.injEq, Instr.ldI.injEq, Instr.jpV0.injEq]
    exact word_iff_op_nnn rfl
  case seByte | sneByte | ldByte | addByte | rnd =>
    simp only [Instr.seByte.injEq, Instr.sneByte.injEq, Instr.ldByte.injEq, Instr.addByte.injEq, Instr.rnd.injEq]
    exact word_iff_op_x_nn rfl
  case seReg | sneReg | ldReg | orReg | andReg | xorReg | addReg | subReg | shr | subn | shl =>
    simp only [Instr.seReg.injEq, Instr.sneReg.injEq, Instr.ldReg.injEq, Instr.orReg.injEq, Instr.andReg.injEq,
      Instr.xorReg.injEq, Instr.addReg.injEq, Instr.subReg.injEq, Instr.shr.injEq, Instr.subn.injEq, Instr.shl.injEq]
    exact word_iff_op_x_y_sub rfl
  case drw =>
    rw [Instr.drw.injEq]
    exact word_iff_op_x_y_n rfl
  case skp | sknp | ldVxDt | ldVxK | ldDtVx | ldStVx | addI | ldF | ldB | ldMemVx | ldVxMem =>
    simp only [Instr.skp.injEq, Instr.sknp.injEq, Instr.ldVxDt.injEq, Instr.ldVxK.injEq, Instr.ldDtVx.injEq,
      Instr.ldStVx.injEq, Instr.addI.injEq, Instr.ldF.injEq, Instr.ldB.injEq, Instr.ldMemVx.injEq, Instr.ldVxMem.injEq]
    exact word_iff_op_x_sub rfl

theorem decodeWord_encode (i : Instr) : decodeWord (encode i) = some i :=
  (decodeWord_eq_some_iff_encode _ i).mpr rfl

theorem decodeBytes_encodeBytes_append (i : Instr) (rest : List Byte) :
    decodeBytes (encodeBytes i ++ rest) = .ok (i, rest) := by
  simp [encodeBytes, bytesOfWord, decodeBytes, wordOfBytes_extract, decodeWord_encode]

/-- Settles O4, from the encoder being the decoder's inverse. -/
theorem decodeOfEncodeIsTheInstruction : Obligations.DecodeOfEncodeIsTheInstruction :=
  fun i rest => ⟨decodeWord_encode i, decodeBytes_encodeBytes_append i rest⟩

/-- Settles O5, the same inverse read the other way. -/
theorem encodeOfDecodeIsTheWord : Obligations.EncodeOfDecodeIsTheWord :=
  fun w i => (decodeWord_eq_some_iff_encode w i).mp

/-- Settles O1: the decoder evaluated at each of the ten words. -/
theorem wordsOfEachFamilyDecode : Obligations.WordsOfEachFamilyDecode := by
  unfold Obligations.WordsOfEachFamilyDecode
  decide

/-! ### Illegal words -/

theorem word_eq_op_xy_n (w : Word) : w.extractLsb' 12 4 ++ (w.extractLsb' 4 8 ++ w.extractLsb' 0 4) = w := by
  apply BitVec.eq_of_getLsbD_eq; intro i hi
  rw [BitVec.getLsbD_append, BitVec.getLsbD_append]
  simp only [BitVec.getLsbD_extractLsb']
  interval_cases i <;> simp

/-! What each mask selects, when a row's pattern is a literal. -/

theorem and_F000_eq_iff (w p : Word) :
    w &&& 0xF000#16 = p ↔ w.extractLsb' 12 4 = p.extractLsb' 12 4 ∧ 0#12 = p.extractLsb' 0 12 := by
  conv_lhs => rw [and_F000, ← word_eq_op_nnn p, append_eq_append_iff]
  rfl

theorem and_F00F_eq_iff (w p : Word) :
    w &&& 0xF00F#16 = p ↔
      w.extractLsb' 12 4 = p.extractLsb' 12 4 ∧ 0#8 = p.extractLsb' 4 8 ∧ w.extractLsb' 0 4 = p.extractLsb' 0 4 := by
  conv_lhs => rw [and_F00F, ← word_eq_op_xy_n p, append_eq_append_iff, append_eq_append_iff]

theorem and_F0FF_eq_iff (w p : Word) :
    w &&& 0xF0FF#16 = p ↔
      w.extractLsb' 12 4 = p.extractLsb' 12 4 ∧ 0#4 = p.extractLsb' 8 4 ∧ w.extractLsb' 0 8 = p.extractLsb' 0 8 := by
  conv_lhs => rw [and_F0FF, ← word_eq_op_x_nn p, BitVec.append_assoc, BitVec.cast_eq, append_eq_append_iff,
    append_eq_append_iff]
  rfl

/-- The digits whose words are all illegal but two, whose words are all legal, and of which a further field decides. -/
theorem op_cases (c : Nibble) : c = 0x0#4 ∨
    c ∈ [0x1#4, 0x2#4, 0x3#4, 0x4#4, 0x6#4, 0x7#4, 0xA#4, 0xB#4, 0xC#4, 0xD#4] ∨
    c = 0x5#4 ∨ c = 0x8#4 ∨ c = 0x9#4 ∨ c = 0xE#4 ∨ c = 0xF#4 := by
  revert c
  decide

theorem mem_illegalAluSub_iff (n : Nibble) : n ∈ [0x8#4, 0x9#4, 0xA#4, 0xB#4, 0xC#4, 0xD#4, 0xF#4] ↔
    n ∉ [0x0#4, 0x1#4, 0x2#4, 0x3#4, 0x4#4, 0x5#4, 0x6#4, 0x7#4, 0xE#4] := by
  revert n
  decide

/-- The two words whose row has a full mask begin with the digit 0. -/
theorem ne_cls_ret_of_op {w : Word} (h : w.extractLsb' 12 4 ≠ 0x0#4) : w ≠ 0x00E0#16 ∧ w ≠ 0x00EE#16 :=
  ⟨fun hw => h (by rw [hw]; rfl), fun hw => h (by rw [hw]; rfl)⟩

/-- Settles O3: each row is said by the fields its mask selects, and then the first digit leaves one row of R57's table. -/
theorem illegalWordsAreExactlyTheTable : Obligations.IllegalWordsAreExactlyTheTable := by
  intro w
  rw [decodeWord_eq_none_iff, mem_illegalAluSub_iff]
  simp only [opcodeTable, controlRows, aluRows, indexRows, miscRows, List.cons_append, List.nil_append,
    List.forall_mem_cons, ne_eq]
  simp only [and_FFFF, and_F000_eq_iff, and_F00F_eq_iff, and_F0FF_eq_iff, BitVec.reduceExtractLsb', List.mem_cons]
  rcases op_cases (w.extractLsb' 12 4) with h | h | h | h | h | h | h
  · simp [h]
  · simp only [List.mem_cons, List.not_mem_nil, or_false] at h
    rcases h with h | h | h | h | h | h | h | h | h | h <;> simp [h]
  all_goals
    have hne := ne_cls_ret_of_op (w := w) (by simp [h])
    simp [h, hne]

end Sys2Proof
end

section
/-! SUPPORT. Proofs of the statements about fetch and STEP, and about two runs with different values of VF_WRITE_ORDER. -/

namespace Sys2Proof.Machine

/-! ### Words that STEP executes -/

/-- R57: no instruction's word is in the table of illegal words, by the field layout of its row. -/
theorem legalWord_encode (i : Instr) : legalWord (encode i) = true := by
  cases i with
  | cls | ret => decide
  | jp | call | ldI | jpV0 => exact Laws.Legal.legal_op_nnn _ _ (by decide)
  | seByte | sneByte | ldByte | addByte | rnd => exact Laws.Legal.legal_op_x_nn _ _ _ (by decide)
  | seReg x y => exact Laws.Legal.legal_5xy0 x y
  | sneReg x y => exact Laws.Legal.legal_9xy0 x y
  | ldReg | orReg | andReg | xorReg | addReg | subReg | shr | subn | shl =>
    exact Laws.Legal.legal_8xyn _ _ _ (by decide)
  | drw x y n => exact Laws.Legal.legal_op_x_y_n _ x y n (by decide)
  | skp | sknp => exact Laws.Legal.legal_exnn _ _ (by decide)
  | ldVxDt | ldVxK | ldDtVx | ldStVx | addI | ldF | ldB | ldMemVx | ldVxMem =>
    exact Laws.Legal.legal_fxnn _ _ (by decide)

theorem decodeWord_eq_none_of_illegal {w : Word} (h : legalWord w = false) : decodeWord w = none := by
  rw [Option.eq_none_iff_forall_ne_some]
  intro i hi
  rw [← encodeOfDecodeIsTheWord w i hi, legalWord_encode] at h
  cases h

/-- Settles O8: an illegal word decodes to nothing, so the step raises after it has advanced pc. -/
theorem illegalWordRaisesUnknownOpcode : Obligations.IllegalWordRaisesUnknownOpcode :=
  fun _ _ hh hf hl => operate_step_of_next (step_of_decode_none hh hf (decodeWord_eq_none_of_illegal hl))

/-- Settles O6: the two bytes are the word that is fetched. -/
theorem stepRunsTheDecodedInstruction : Obligations.StepRunsTheDecodedInstruction :=
  fun _ _ _ _ hh hhi hlo hd => step_of_decode_some hh (fetch_of_memRead hhi hlo) hd

theorem fetch_eq_none_of_memRead_succ {s : State} (h : memRead s (s.pc.toNat + 1) = none) : fetch s = none := by
  rw [fetch, h]
  cases memRead s s.pc.toNat <;> rfl

/-- Settles O7: both bytes exist exactly when the second does. -/
theorem fetchIsBigEndianAndFaultsAtTheTop : Obligations.FetchIsBigEndianAndFaultsAtTheTop := by
  intro s
  constructor
  · intro hpc
    have hlo : s.pc.toNat + 1 < memSize := by simp only [memSize]; omega
    exact fetch_of_memRead (memRead_of_lt s (Nat.lt_of_succ_lt hlo)) (memRead_of_lt s hlo)
  · intro hpc
    have hlo : memSize ≤ s.pc.toNat + 1 := by simp only [memSize]; omega
    have hfetch : fetch s = none := fetch_eq_none_of_memRead_succ (memRead_of_ge s hlo)
    exact ⟨hfetch, fun hh => step_of_fetch_none hh hfetch⟩

/-! ### Two runs with different write orders -/

/-- `s` constructed with another configuration. Of the shared operations `write2`, `shiftOperand` and `glyphAddr` alone read
it. -/
def State.withConfig (s : State) (c : Config) : State := { s with config := c }

theorem skipIf_withConfig (s : State) (c : Config) (b : Bool) :
    skipIf (s.withConfig c) b = (skipIf s b).withConfig c := by
  cases b <;> rfl

/-- Writes to two different registers do the same in either order. -/
theorem setV_comm {x y : Nibble} (h : x ≠ y) (s : State) (a b : Byte) :
    setV (setV s x a) y b = setV (setV s y b) x a := by
  have hne : x.toNat ≠ y.toNat := fun he => h (BitVec.eq_of_toNat_eq he)
  simp [setV, Vector.set_comm _ _ hne]

/-- R76: a result that does not go to VF and the flag can be written in either order. -/
theorem write2_of_ne_vf {x : Nibble} (h : x ≠ vf) (s : State) (r : Byte) (f : Bool) :
    write2 s x r f = setV (setV s x r) vf (flagByte f) := by
  unfold write2
  cases s.config.vfWriteOrder with
  | flagLast => rfl
  | resultLast => exact setV_comm h.symm s (flagByte f) r

theorem write2_withConfig {x : Nibble} (h : x ≠ vf) (s : State) (c : Config) (r : Byte) (f : Bool) :
    write2 (s.withConfig c) x r f = (write2 s x r f).withConfig c := by
  rw [write2_of_ne_vf h, write2_of_ne_vf h]
  rfl

theorem memRead_withConfig (s : State) (c : Config) (a : Nat) : memRead (s.withConfig c) a = memRead s a := rfl

theorem storeBytes_withConfig (bs : List Byte) (s : State) (c : Config) (a : Nat) :
    storeBytes (s.withConfig c) a bs = (storeBytes s a bs).withConfig c := by
  induction bs generalizing s a with
  | nil => rfl
  | cons b bs ih =>
    rcases Nat.lt_or_ge a memSize with ha | ha
    · simp only [storeBytes, memWrite_of_lt _ b ha]
      exact ih { s with mem := Memory.set s.mem a b } (a + 1)
    · simp only [storeBytes, memWrite_of_ge _ b ha]
      rfl

theorem loadRegs_withConfig (k : Nat) (s : State) (c : Config) (a i : Nat) :
    loadRegs (s.withConfig c) a i k = (loadRegs s a i k).withConfig c := by
  induction k generalizing s i with
  | zero => rfl
  | succ k ih =>
    simp only [loadRegs, memRead_withConfig]
    cases memRead s (a + i) with
    | none => rfl
    | some b => exact ih (setV s (BitVec.ofNat 4 i) b) (i + 1)

theorem blitPixel_withConfig (s : State) (c : Config) (x y : Nat) :
    blitPixel (s.withConfig c) x y = (blitPixel s x y).withConfig c := by
  have hpixel : pixel (s.withConfig c) x y = pixel s x y := rfl
  rw [blitPixel_eq, blitPixel_eq, hpixel]
  cases pixel s x y <;> rfl

theorem blitCols_withConfig (k : Nat) (s : State) (c : Config) (x y : Nat) (b : Byte) (j : Nat) :
    blitCols (s.withConfig c) x y b j k = (blitCols s x y b j k).withConfig c := by
  induction k generalizing s j with
  | zero => rfl
  | succ k ih =>
    simp only [blitCols, blitPixel_withConfig]
    rw [← ih]
    split <;> rfl

theorem blitRows_withConfig (k : Nat) (s : State) (c : Config) (x y r : Nat) :
    blitRows (s.withConfig c) x y r k = (blitRows s x y r k).withConfig c := by
  induction k generalizing s r with
  | zero => rfl
  | succ k ih =>
    have hindex : (s.withConfig c).index = s.index := rfl
    simp only [blitRows, hindex, memRead_withConfig]
    cases memRead s (s.index.toNat + r) with
    | none => rfl
    | some b => simp only [blitCols_withConfig, ih]

/-- An instruction without VF among its destinations does the same in either write order. -/
theorem exec_withConfig_vfWriteOrder (i : Instr) (s : State) (o : VfWriteOrder)
    (hd : Instr.hasDestination i vf = false) :
    ∃ t, exec i s = .next t ∧ exec i (s.withConfig { s.config with vfWriteOrder := o }) =
      .next (t.withConfig { s.config with vfWriteOrder := o }) := by
  cases i with
  | ret =>
    by_cases h : 0 < s.sp.val
    · exact ⟨_, exec_ret_of_pos h, exec_ret_of_pos (s := s.withConfig { s.config with vfWriteOrder := o }) h⟩
    · have h0 : s.sp.val = 0 := by omega
      exact ⟨_, exec_ret_empty h0, exec_ret_empty (s := s.withConfig { s.config with vfWriteOrder := o }) h0⟩
  | call nnn =>
    by_cases h : s.sp.val < 16
    · exact ⟨_, exec_call_of_lt nnn h, exec_call_of_lt (s := s.withConfig { s.config with vfWriteOrder := o }) nnn h⟩
    · have h16 : s.sp.val = 16 := by omega
      exact ⟨_, exec_call_full nnn h16, exec_call_full (s := s.withConfig { s.config with vfWriteOrder := o }) nnn h16⟩
  | cls | jp | jpV0 | ldByte | addByte | ldReg | orReg | andReg | xorReg | ldVxDt | rnd | ldI | addI | ldF | ldDtVx
  | ldStVx => exact ⟨_, rfl, rfl⟩
  | seByte | sneByte | seReg | sneReg => exact ⟨_, rfl, congrArg Host.Outcome.next (skipIf_withConfig s _ _)⟩
  | addReg | subReg | shr | subn | shl =>
    exact ⟨_, rfl, congrArg Host.Outcome.next (write2_withConfig (beq_eq_false_iff_ne.mp hd).symm s _ _ _)⟩
  | drw x y n => exact ⟨_, rfl, congrArg Host.Outcome.next (blitRows_withConfig _ (setV s vf 0x00#8) _ _ _ 0)⟩
  | skp x | sknp x =>
    have hkey (c : Config) : keyOperand (s.withConfig c) x = keyOperand s x := rfl
    simp only [exec, execSkp, execSknp, hkey]
    cases keyOperand s x with
    | some k => exact ⟨_, rfl, congrArg Host.Outcome.next (skipIf_withConfig s _ _)⟩
    | none => exact ⟨_, rfl, rfl⟩
  | ldVxK x =>
    have hkey (c : Config) : firstKey (s.withConfig c) = firstKey s := rfl
    simp only [exec, execLdVxK, hkey]
    cases firstKey s with
    | some k => exact ⟨_, rfl, rfl⟩
    | none => exact ⟨_, rfl, rfl⟩
  | ldB | ldMemVx => exact ⟨_, rfl, congrArg Host.Outcome.next (storeBytes_withConfig _ s _ _)⟩
  | ldVxMem x => exact ⟨_, rfl, congrArg Host.Outcome.next (loadRegs_withConfig _ s _ _ 0)⟩

/-- Settles O40: the order is read only where result and flag are both written, and there the result does not go to VF. -/
theorem writeOrderMattersOnlyForVf : Obligations.WriteOrderMattersOnlyForVf := by
  intro i s t o hd h
  obtain ⟨u, hu, hu'⟩ := exec_withConfig_vfWriteOrder i s o hd
  cases hu.symm.trans h
  exact hu'

end Sys2Proof.Machine
end

section
/-! SUPPORT. Proofs of the statements about control transfer: RET, the jumps, CALL, and the skips. -/

namespace Sys2Proof.Machine

/-! ### RET, JP and CALL -/

/-- Settles O10: a pop of a stack that is not empty, and of one that is. -/
theorem retPopsPc : Obligations.RetPopsPc := by
  refine ⟨decodeWord_encode .ret, fun s => ⟨fun k hk => ?_, fun h0 => ?_⟩⟩
  · have hpos : 0 < s.sp.val := by simp [hk]
    rw [exec_ret_of_pos hpos]
    simp only [hk]
    rfl
  · exact exec_ret_empty (by simp [h0])

/-- R74: the target is the sum of the two operands, zero-extended. -/
theorem indexedTarget_eq (s : State) (nnn : Addr12) :
    indexedTarget s nnn = nnn.setWidth 16 + (getV s 0x0#4).setWidth 16 := by
  rw [indexedTarget, BitVec.ofNat_add, BitVec.ofNat_toNat, BitVec.ofNat_toNat, BitVec.add_comm]

theorem exec_jp (nnn : Addr12) (s : State) : exec (.jp nnn) s = .next (setPc s (zextAddr nnn)) := rfl

theorem exec_jpV0 (nnn : Addr12) (s : State) : exec (.jpV0 nnn) s = .next (setPc s (indexedTarget s nnn)) := rfl

/-- Settles O11, by the values of the two targets. -/
theorem jumpsSetPc : Obligations.JumpsSetPc := by
  refine fun nnn s => ⟨decodeWord_encode (.jp nnn), ?_, decodeWord_encode (.jpV0 nnn), ?_⟩
  · rw [exec_jp, zextAddr_eq, setPc]
  · rw [exec_jpV0, indexedTarget_eq, setPc]

/-- Settles O12: a push below capacity, and a push onto a full stack. -/
theorem callPushesTheReturnAddress : Obligations.CallPushesTheReturnAddress := by
  refine fun nnn s => ⟨decodeWord_encode (.call nnn), fun k hk => ?_, fun h16 => ?_⟩
  · have hlt : s.sp.val < 16 := by simp [hk]
    rw [exec_call_of_lt nnn hlt, zextAddr_eq]
    simp only [hk]
    rfl
  · exact exec_call_full nnn (by simp [h16])

/-! ### Skips -/

theorem skipIf_beq (s : State) (a b : Byte) :
    skipIf s (a == b) = { s with pc := if a = b then s.pc + 2#16 else s.pc } := by
  simp [skipIf_eq]

theorem skipIf_bne (s : State) (a b : Byte) :
    skipIf s (a != b) = { s with pc := if a = b then s.pc else s.pc + 2#16 } := by
  simp [skipIf_eq]

/-- Settles O13: each is a skip on VX compared with nn. -/
theorem skipsOnImmediate : Obligations.SkipsOnImmediate :=
  fun x nn s =>
    ⟨decodeWord_encode (.seByte x nn), congrArg Host.Outcome.next (skipIf_beq s (getV s x) nn),
      decodeWord_encode (.sneByte x nn), congrArg Host.Outcome.next (skipIf_bne s (getV s x) nn)⟩

/-- R57: 5XYN and 9XYN with N other than 0 are in the table of illegal words. -/
theorem decodeWord_5xyn_9xyn_of_ne_zero (x y : Nibble) {n : Nibble} (hn : n ≠ 0x0#4) :
    decodeWord (0x5#4 ++ x ++ y ++ n) = none ∧ decodeWord (0x9#4 ++ x ++ y ++ n) = none := by
  have hlast (c : Nibble) : (c ++ x ++ y ++ n : Word).extractLsb' 0 4 ≠ 0x0#4 := by
    rwa [← fieldN, fieldN_of_op_x_y_n]
  exact ⟨(illegalWordsAreExactlyTheTable _).mpr (.inr (.inl ⟨op_of_op_x_y_n _ x y n, hlast _⟩)),
    (illegalWordsAreExactlyTheTable _).mpr (.inr (.inr (.inr (.inl ⟨op_of_op_x_y_n _ x y n, hlast _⟩))))⟩

/-- Settles O14: each is a skip on VX compared with VY, and a last digit other than 0 makes the word illegal. -/
theorem skipsOnRegisters : Obligations.SkipsOnRegisters :=
  fun x y s =>
    ⟨decodeWord_encode (.seReg x y), congrArg Host.Outcome.next (skipIf_beq s (getV s x) (getV s y)),
      decodeWord_encode (.sneReg x y), congrArg Host.Outcome.next (skipIf_bne s (getV s x) (getV s y)),
      fun _ hn => decodeWord_5xyn_9xyn_of_ne_zero x y hn⟩

end Sys2Proof.Machine
end

section
/-! SUPPORT. Proofs of the statements about the ALU and register moves: what each flag computation and each pair of
writes is in bit-vector arithmetic, and the masked draw. -/

namespace Sys2Proof.Machine

/-! ### Results and flags in bit-vector arithmetic -/

/-- R83. -/
theorem flagByte_carryOut (a b : Byte) :
    flagByte (carryOut a b) = if a.toNat + b.toNat < 256 then 0#8 else 1#8 := by
  simp only [flagByte, carryOut, decide_eq_true_eq, ← Nat.not_lt, ite_not]

theorem shiftRight1_eq (a : Byte) : shiftRight1 a = a >>> 1 := by
  apply BitVec.eq_of_toNat_eq
  have hlt := a.isLt
  rw [shiftRight1, BitVec.toNat_ofNat, BitVec.toNat_ushiftRight, Nat.shiftRight_eq_div_pow]
  omega

theorem shiftLeft1_eq (a : Byte) : shiftLeft1 a = a <<< 1 := by
  apply BitVec.eq_of_toNat_eq
  simp [shiftLeft1, Nat.shiftLeft_eq]

theorem toNat_flagByte_decide (p : Prop) [Decidable p] : (flagByte (decide p)).toNat = if p then 1 else 0 := by
  by_cases h : p <;> simp [flagByte, h]

/-- R85: bit 0. -/
theorem flagByte_lowBit (a : Byte) : flagByte (lowBit a) = a &&& 1#8 := by
  apply BitVec.eq_of_toNat_eq
  have hbit : (a &&& 1#8).toNat = a.toNat % 2 := by
    rw [BitVec.toNat_and, BitVec.toNat_ofNat, Nat.and_one_is_mod]
  rw [lowBit, toNat_flagByte_decide, hbit]
  split <;> omega

/-- R87: bit 7. -/
theorem flagByte_highBit (a : Byte) : flagByte (highBit a) = a >>> 7 &&& 1#8 := by
  apply BitVec.eq_of_toNat_eq
  have hlt := a.isLt
  have hbit : (a >>> 7 &&& 1#8).toNat = a.toNat / 128 := by
    rw [BitVec.toNat_and, BitVec.toNat_ofNat, Nat.and_one_is_mod, BitVec.toNat_ushiftRight, Nat.shiftRight_eq_div_pow]
    omega
  rw [highBit, toNat_flagByte_decide, hbit]
  split <;> omega

theorem shiftOperand_eq (s : State) (x y : Nibble) :
    shiftOperand s x y = if s.config.shiftSource = .vx then getV s x else getV s y := by
  unfold shiftOperand
  cases s.config.shiftSource <;> rfl

/-! ### The pair of writes of each operation with a flag -/

section
variable (s : State) (x : Nibble) (a b : Byte)

theorem write2_addMod : write2 s x (addMod a b) (carryOut a b) =
    twoWrites s x (a + b) (if a.toNat + b.toNat < 256 then 0#8 else 1#8) := by
  rw [addMod_eq_add, write2_eq_twoWrites _ _ _ _ _ (flagByte_carryOut a b)]

theorem write2_subMod : write2 s x (subMod a b) (noBorrow a b) =
    twoWrites s x (a - b) (if a < b then 0#8 else 1#8) := by
  rw [subMod_eq_sub, write2_eq_twoWrites _ _ _ _ _ (flagByte_noBorrow a b)]

theorem write2_shiftRight1 : write2 s x (shiftRight1 a) (lowBit a) = twoWrites s x (a >>> 1) (a &&& 1#8) := by
  rw [shiftRight1_eq, write2_eq_twoWrites _ _ _ _ _ (flagByte_lowBit a)]

theorem write2_shiftLeft1 : write2 s x (shiftLeft1 a) (highBit a) = twoWrites s x (a <<< 1) (a >>> 7 &&& 1#8) := by
  rw [shiftLeft1_eq, write2_eq_twoWrites _ _ _ _ _ (flagByte_highBit a)]
end

/-! ### The statements -/

theorem exec_addByte (x : Nibble) (nn : Byte) (s : State) :
    exec (.addByte x nn) s = .next (setV s x (getV s x + nn)) := by
  rw [← addMod_eq_add]
  rfl

/-- Settles O16: each is one register write, and the sum modulo 256 is the sum of bit vectors. -/
theorem immediateLoadAndAdd : Obligations.ImmediateLoadAndAdd :=
  fun x nn s => ⟨decodeWord_encode (.ldByte x nn), rfl, decodeWord_encode (.addByte x nn), exec_addByte x nn s⟩

/-- Settles O17: each is one register write of the value named. -/
theorem copyAndLogicWriteOnlyTheDestination : Obligations.CopyAndLogicWriteOnlyTheDestination :=
  fun x y _ =>
    ⟨decodeWord_encode (.ldReg x y), rfl, decodeWord_encode (.orReg x y), rfl,
      decodeWord_encode (.andReg x y), rfl, decodeWord_encode (.xorReg x y), rfl⟩

/-- Settles O18, by the sum and the carry. -/
theorem addWritesSumAndCarry : Obligations.AddWritesSumAndCarry :=
  fun x y s =>
    ⟨decodeWord_encode (.addReg x y), congrArg Host.Outcome.next (write2_addMod s x (getV s x) (getV s y))⟩

/-- Settles O19: SUBN is SUB with minuend and subtrahend exchanged. -/
theorem subtractionsWriteDifferenceAndNoBorrow : Obligations.SubtractionsWriteDifferenceAndNoBorrow :=
  fun x y s =>
    ⟨decodeWord_encode (.subReg x y), congrArg Host.Outcome.next (write2_subMod s x (getV s x) (getV s y)),
      decodeWord_encode (.subn x y), congrArg Host.Outcome.next (write2_subMod s x (getV s y) (getV s x))⟩

/-- Settles O20: the byte of the hypothesis is the operand that both shifts read. -/
theorem shiftsWriteResultAndShiftedOutBit : Obligations.ShiftsWriteResultAndShiftedOutBit := by
  intro x y s a ha
  rw [← shiftOperand_eq] at ha
  subst ha
  exact ⟨decodeWord_encode (.shr x y), congrArg Host.Outcome.next (write2_shiftRight1 s x _),
    decodeWord_encode (.shl x y), congrArg Host.Outcome.next (write2_shiftLeft1 s x _)⟩

/-- R88: the draw is counted, and VX receives it masked. -/
theorem exec_rnd (x : Nibble) (nn : Byte) (s : State) :
    exec (.rnd x nn) s = .next (setV { s with draws := s.draws + 1 } x (nn &&& Config.randomByte s.draws)) := by
  rw [BitVec.and_comm]
  rfl

/-- Settles O21: a byte masked by `nn` is at most `nn`, and so 0 where `nn` is. -/
theorem rndMasksOneDraw : Obligations.RndMasksOneDraw := by
  refine fun x nn s => ⟨decodeWord_encode (.rnd x nn), exec_rnd x nn s, fun t ht => ?_⟩
  rw [exec_rnd] at ht
  obtain rfl := Host.Outcome.next.inj ht
  rw [getV_setV_self]
  constructor
  · rintro rfl
    exact BitVec.zero_and
  · rw [BitVec.le_def, BitVec.toNat_and]
    exact Nat.and_le_left

end Sys2Proof.Machine
end

section
/-! SUPPORT. Proofs of the statements about the index register and memory transfers: the values written to I, the digits of
a byte, and the bulk store and load in the terms of the statements. -/

namespace Sys2Proof.Machine

/-! ### The values written to I -/

/-- R90: the sum of I and VX, zero-extended. -/
theorem indexSum_eq (s : State) (x : Nibble) : indexSum s x = s.index + (getV s x).setWidth 16 := by
  rw [indexSum, BitVec.ofNat_add, BitVec.ofNat_toNat, BitVec.ofNat_toNat, BitVec.setWidth_eq]

theorem toNat_lowNibble (b : Byte) : (b &&& 0x0F#8).toNat = b.toNat % 16 := by
  rw [BitVec.toNat_and]
  exact Nat.and_two_pow_sub_one_eq_mod b.toNat 4

/-- R91: with FONT_BASE at most 432 the address of a glyph does not wrap. -/
theorem toNat_glyphAddr (s : State) (x : Nibble) :
    (glyphAddr s x).toNat = s.config.fontBase.val + (getV s x).toNat % 16 * 5 := by
  have hbase := s.config.fontBase.isLt
  rw [glyphAddr, toNat_lowNibble, fontStride, BitVec.toNat_ofNat, Nat.mod_eq_of_lt (by omega)]

theorem exec_ldI (nnn : Addr12) (s : State) : exec (.ldI nnn) s = .next (setIndex s (zextAddr nnn)) := rfl

theorem exec_addI (x : Nibble) (s : State) : exec (.addI x) s = .next (setIndex s (indexSum s x)) := rfl

theorem exec_ldF (x : Nibble) (s : State) : exec (.ldF x) s = .next (setIndex s (glyphAddr s x)) := rfl

/-- Settles O22: each is one write of I, of the value named. -/
theorem indexRegisterWriters : Obligations.IndexRegisterWriters := by
  refine fun s => ⟨fun nnn => ⟨decodeWord_encode (.ldI nnn), ?_⟩, fun x =>
    ⟨decodeWord_encode (.addI x), ?_, decodeWord_encode (.ldF x), _, exec_ldF x s, rfl, toNat_glyphAddr s x⟩⟩
  · rw [exec_ldI, zextAddr_eq, setIndex]
  · rw [exec_addI, indexSum_eq, setIndex]

/-! ### Stores -/

/-- R92: three decimal digits that make up a byte are its digits. -/
theorem decimalDigits_eq {d : Byte} {h t o : Nat} (hd : d.toNat = 100 * h + 10 * t + o) (ht : t < 10) (ho : o < 10) :
    decimalDigits d = [BitVec.ofNat 8 h, BitVec.ofNat 8 t, BitVec.ofNat 8 o] := by
  have hhundreds : d.toNat / 100 = h := by omega
  have htens : d.toNat / 10 % 10 = t := by omega
  have hones : d.toNat % 10 = o := by omega
  rw [decimalDigits, hhundreds, htens, hones]

/-- A bulk store of `n + 1` bytes, by whether the address of its last byte exists. -/
theorem storedAt_storeBytes_by_last {s : State} {bs : List Byte} {n : Nat} (a : Nat) (hw : Memory.wf s.mem = true)
    (hlen : bs.length = n + 1) :
    (a + n < 4096 →
      storeBytes s a bs = { s with mem := (storeBytes s a bs).mem } ∧ StoredAt s (storeBytes s a bs) a bs) ∧
    (4096 ≤ a + n →
      storeBytes s a bs = { s with mem := (storeBytes s a bs).mem, halted := true, faultCause := 3#3 } ∧
        StoredAt s (storeBytes s a bs) a (bs.take (4096 - a))) := by
  constructor
  · intro hfit
    exact storedAt_storeBytes_fit s bs hw a (by rw [hlen]; exact hfit)
  · intro hover
    exact storedAt_storeBytes_over s bs hw a (List.ne_nil_of_length_eq_add_one hlen)
      (by rw [hlen]; exact Nat.lt_add_one_of_le hover)

theorem exec_ldB (x : Nibble) (s : State) :
    exec (.ldB x) s = .next (storeBytes s s.index.toNat (decimalDigits (getV s x))) := rfl

theorem exec_ldMemVx (x : Nibble) (s : State) :
    exec (.ldMemVx x) s = .next (storeBytes s s.index.toNat (regsUpTo s x)) := rfl

/-- Settles O23: FX33 is a bulk store of the three digits. -/
theorem storeBcdWritesThreeDigits : Obligations.StoreBcdWritesThreeDigits := by
  intro x s h t o hw hd ht ho
  obtain ⟨hfit, hover⟩ := storedAt_storeBytes_by_last s.index.toNat hw (length_decimalDigits (getV s x))
  rw [exec_ldB, ← decimalDigits_eq hd ht ho]
  exact ⟨decodeWord_encode (.ldB x), fun hlast => ⟨_, rfl, hfit hlast⟩, fun hlast => ⟨_, rfl, hover hlast⟩⟩

/-- Settles O24: FX55 is a bulk store of the x + 1 registers V0..VX. -/
theorem storeRegistersWritesV0ToVx : Obligations.StoreRegistersWritesV0ToVx := by
  intro x s hw
  obtain ⟨hfit, hover⟩ := storedAt_storeBytes_by_last s.index.toNat hw (length_regsUpTo s x)
  rw [exec_ldMemVx, ← regsUpTo_eq]
  exact ⟨decodeWord_encode (.ldMemVx x), fun hlast => ⟨_, rfl, hfit hlast⟩, fun hlast => ⟨_, rfl, hover hlast⟩⟩

/-! ### Loads -/

/-- A bulk load from V0 upwards all of whose addresses exist. -/
theorem loadedFrom_loadRegs_fit (s : State) {a m : Nat} (hfit : m = 0 ∨ a + m ≤ memSize) (hm : m ≤ 16) :
    loadRegs s a 0 m = { s with v := (loadRegs s a 0 m).v } ∧ LoadedFrom s (loadRegs s a 0 m) a m := by
  obtain ⟨hframe, hregs⟩ := loadRegs_fit m s a 0 (by omega) (by omega)
  refine ⟨hframe, fun r => ?_⟩
  obtain ⟨hloaded, hkept⟩ := hregs r
  exact ⟨fun hr => hloaded (by omega) (by omega), fun hr => hkept (by omega)⟩

/-- A bulk load from V0 upwards that reaches an address that does not exist. -/
theorem loadedFrom_loadRegs_over (s : State) {a m : Nat} (hover : memSize < a + m) (hm : 0 < m) (hm' : m ≤ 16) :
    loadRegs s a 0 m = { s with v := (loadRegs s a 0 m).v, halted := true, faultCause := 3#3 } ∧
      LoadedFrom s (loadRegs s a 0 m) a (4096 - a) := by
  obtain ⟨hframe, hloaded⟩ := loadedFrom_loadRegs_fit s (a := a) (m := memSize - a) (by omega) (by omega)
  rw [loadRegs_over m s a 0 hm (by omega)]
  refine ⟨?_, hloaded⟩
  rw [Nat.add_zero, hframe]
  rfl

theorem exec_ldVxMem (x : Nibble) (s : State) :
    exec (.ldVxMem x) s = .next (loadRegs s s.index.toNat 0 (x.toNat + 1)) := rfl

/-- Settles O25: FX65 is a bulk load of the x + 1 registers V0..VX. -/
theorem loadRegistersReadsV0ToVx : Obligations.LoadRegistersReadsV0ToVx := by
  intro x s
  have hx := x.isLt
  rw [exec_ldVxMem]
  refine ⟨decodeWord_encode (.ldVxMem x), fun hfit => ⟨_, rfl, ?_⟩, fun hover => ⟨_, rfl, ?_⟩⟩
  · exact loadedFrom_loadRegs_fit s (.inr hfit) (by omega)
  · exact loadedFrom_loadRegs_over s (Nat.lt_add_one_of_le hover) (by omega) (by omega)

end Sys2Proof.Machine
end

section
/-! SUPPORT. Proofs of the statements about the display: CLS, one toggle and two, and DXYN in the terms of R99, drawn
once and drawn twice. -/

namespace Sys2Proof.Machine

/-! ### CLS -/

theorem exec_cls (s : State) : exec .cls s = .next (displayClear s) := rfl

theorem pixel_displayClear (s : State) (x y : Nat) : pixel (displayClear s) x y = false := by
  simp [pixel]

/-- Settles O26: CLS is `DisplayClear`, and R97 leaves every pixel 0. -/
theorem clsClearsEveryPixel : Obligations.ClsClearsEveryPixel :=
  ⟨decodeWord_encode .cls, fun s => ⟨_, exec_cls s, rfl, fun _ _ => pixel_displayClear s _ _⟩⟩

/-! ### One toggle -/

theorem displayXor_snd (s : State) (x y : Nat) : (displayXor s x y).2 = pixel s x y := rfl

/-- Two states that differ at most in the display, and there in no pixel, are equal. -/
theorem State.eq_of_pixel_eq {s t : State} (hframe : t = { s with fb := t.fb })
    (hpixel : ∀ px py, pixel t px py = pixel s px py) : t = s :=
  hframe.trans (by rw [fb_ext fun px py _ _ => hpixel px py])

/-- R95: DisplayXor names its pixel at wrapped coordinates. -/
theorem displayXor_add_dims (s : State) (x y : Nat) : displayXor s (x + 64) (y + 32) = displayXor s x y := by
  have hrow : wrapRow (y + 32) = wrapRow y := Fin.ext (Nat.add_mod_right y 32)
  have hcol : wrapCol (x + 64) = wrapCol x := Nat.add_mod_right x 64
  simp only [displayXor, pixel, hrow, hcol]

/-- R96, by R26's pixel number. -/
theorem fbAt_displayXor (s : State) (x y : Nat) {k : Nat} (hk : k < 2048) :
    fbAt (displayXor s x y).1 k = if k = x % 64 + 64 * (y % 32) then !fbAt s k else fbAt s k := by
  have hindex : (k % 64 % 64 = x % 64 ∧ k / 64 % 32 = y % 32) ↔ k = x % 64 + 64 * (y % 32) := by omega
  simp only [fbAt, pixel_xor, hindex]

theorem displayXor_displayXor_self (s : State) (x y : Nat) : (displayXor (displayXor s x y).1 x y).1 = s := by
  refine State.eq_of_pixel_eq rfl fun px py => ?_
  rw [pixel_xor, pixel_xor]
  split
  · exact Bool.not_not _
  · rfl

/-- Settles O27: the pixel number names the pixel at the wrapped coordinates, and a toggle is its own inverse. -/
theorem displayXorTogglesOnePixel : Obligations.DisplayXorTogglesOnePixel := by
  refine fun s x y => ⟨?_, fun k hk => fbAt_displayXor s x y hk, rfl, displayXor_add_dims s x y,
    displayXor_displayXor_self s x y, ?_⟩
  · rw [fbAt_index s (Nat.mod_lt x (by decide)), pixel_wrap, displayXor_snd]
  · rw [displayXor_snd, displayXor_snd, pixel_xor, if_pos ⟨rfl, rfl⟩]

/-! ### Two toggles -/

/-- R100: a sprite is narrower than the display and lower than it, so no two of its places wrap to one pixel. -/
theorem places_eq_of_wrap_eq {x y c r c' r' : Nat} (hc : c < 8) (hc' : c' < 8) (hr : r < 15) (hr' : r' < 15)
    (hcol : (x + c) % 64 = (x + c') % 64) (hrow : (y + r) % 32 = (y + r') % 32) : c = c' ∧ r = r' := by
  omega

theorem displayXor_comm (s : State) (x y x' y' : Nat) :
    (displayXor (displayXor s x y).1 x' y').1 = (displayXor (displayXor s x' y').1 x y).1 := by
  refine State.eq_of_pixel_eq rfl fun px py => ?_
  simp only [pixel_xor]
  split <;> split <;> rfl

/-- Settles O30: two places of one sprite are two pixels, and toggles commute. -/
theorem oneDrawNeverTogglesAPixelTwice : Obligations.OneDrawNeverTogglesAPixelTwice := by
  intro s x y c r c' r' hc hc' hr hr' hne
  refine ⟨fun ⟨hcol, hrow⟩ => ?_, ?_, displayXor_comm s _ _ _ _⟩
  · exact hne (places_eq_of_wrap_eq hc hc' hr hr' hcol (Fin.val_eq_of_eq hrow))
  · rw [displayXor_snd, displayXor_snd, pixel_xor, if_neg]
    rintro ⟨hcol, hrow⟩
    exact hne (places_eq_of_wrap_eq hc hc' hr hr' hcol.symm hrow.symm)

/-! ### DXYN -/

/-- R99: VF cleared, then the first `m` rows of the sprite at I blitted from (x0, y0). -/
def drawSprite (s : State) (x0 y0 m : Nat) : State := blitRows (setV s vf 0x00#8) x0 y0 0 m

theorem exec_drw (x y n : Nibble) (s : State) :
    exec (.drw x y n) s = .next (drawSprite s (getV s x).toNat (getV s y).toNat n.toNat) := rfl

theorem drawSprite_zero (s : State) (x0 y0 : Nat) : drawSprite s x0 y0 0 = setV s vf 0x00#8 := rfl

/-- Settles O29: with no row to blit, clearing VF is all. -/
theorem drwOfNoRowsClearsVf : Obligations.DrwOfNoRowsClearsVf := by
  intro x y s
  rw [exec_drw, BitVec.toNat_zero, drawSprite_zero]
  rfl

/-- A draw all of whose rows exist. -/
theorem drawSprite_fit (s : State) (x0 y0 : Nat) {m : Nat} (hfit : m = 0 ∨ s.index.toNat + m ≤ memSize)
    (hm : m ≤ 15) :
    drawSprite s x0 y0 m = { s with v := (drawSprite s x0 y0 m).v, fb := (drawSprite s x0 y0 m).fb } ∧
      DrawnRows s (drawSprite s x0 y0 m) x0 y0 m := by
  have hblit := Blit.rows m (setV s vf 0x00#8) x0 y0 0 (by omega) hfit
  exact ⟨hblit.frame, drawnRows_of_blit hm rfl hblit⟩

/-- A draw that reaches a row that does not exist: the rows that exist, then OutOfBounds. -/
theorem drawSprite_over (s : State) (x0 y0 : Nat) {m : Nat} (hover : memSize < s.index.toNat + m) (hpos : 0 < m)
    (hm : m ≤ 15) :
    drawSprite s x0 y0 m =
        { s with v := (drawSprite s x0 y0 m).v, fb := (drawSprite s x0 y0 m).fb, halted := true, faultCause := 3#3 } ∧
      DrawnRows s (drawSprite s x0 y0 m) x0 y0 (4096 - s.index.toNat) := by
  have hraise : drawSprite s x0 y0 m = raiseFault (drawSprite s x0 y0 (memSize - s.index.toNat)) .outOfBounds :=
    blitRows_over m (setV s vf 0x00#8) x0 y0 0 hpos hover
  obtain ⟨hframe, hdrawn⟩ := drawSprite_fit s x0 y0 (m := memSize - s.index.toNat) (by omega) (by omega)
  rw [hraise]
  refine ⟨?_, hdrawn⟩
  rw [hframe]
  rfl

theorem drawnRows_of_exec_drw {x y n : Nibble} {s t : State} (hfit : n = 0x0#4 ∨ s.index.toNat + n.toNat ≤ 4096)
    (h : exec (.drw x y n) s = .next t) :
    t = { s with v := t.v, fb := t.fb } ∧ DrawnRows s t (getV s x).toNat (getV s y).toNat n.toNat := by
  rw [exec_drw] at h
  obtain rfl := Host.Outcome.next.inj h
  exact drawSprite_fit s _ _ (hfit.imp_left BitVec.toNat_eq.mp) (Nat.le_of_lt_succ n.isLt)

/-- Settles O28: DXYN is a draw of n rows, which all exist or do not. -/
theorem drwBlitsTheSprite : Obligations.DrwBlitsTheSprite := by
  refine fun x y n s => ⟨decodeWord_encode (.drw x y n), fun hfit => ⟨_, exec_drw x y n s, ?_⟩,
    fun ⟨hne, hover⟩ => ⟨_, exec_drw x y n s, ?_⟩⟩
  · exact drawnRows_of_exec_drw hfit (exec_drw x y n s)
  · have hpos : 0 < n.toNat := Nat.pos_of_ne_zero fun hzero => hne (BitVec.eq_of_toNat_eq hzero)
    exact drawSprite_over s _ _ hover hpos (Nat.le_of_lt_succ n.isLt)

/-! ### DXYN twice -/

/-- The second of two draws of one sprite toggles back what the first toggled. -/
theorem DrawnRows.fb_twice {s t u : State} {x0 y0 m : Nat} (hst : DrawnRows s t x0 y0 m) (htu : DrawnRows t u x0 y0 m)
    (hbits : ∀ r c, spriteBit t r c ↔ spriteBit s r c) : u.fb = s.fb := by
  obtain ⟨hplace, houtside, -⟩ := hst
  obtain ⟨hplace', houtside', -⟩ := htu
  refine fb_ext fun px py hx hy => ?_
  by_cases hin : ∃ r c, r < m ∧ c < 8 ∧ px = (x0 + c) % dispW ∧ py = (y0 + r) % dispH
  · obtain ⟨r, c, hr, hc, rfl, rfl⟩ := hin
    obtain ⟨hset, hclear⟩ := hplace r c hr hc
    obtain ⟨hset', hclear'⟩ := hplace' r c hr hc
    rw [pixel_wrap, pixel_wrap]
    by_cases hbit : spriteBit s r c
    · rw [hset' ((hbits r c).mpr hbit), hset hbit, Bool.not_not]
    · rw [hclear' (mt (hbits r c).mp hbit), hclear hbit]
  · have hout : ∀ r c, r < m → c < 8 → ¬(px = (x0 + c) % dispW ∧ py = (y0 + r) % dispH) :=
      fun r c hr hc hpx => hin ⟨r, c, hr, hc, hpx⟩
    rw [houtside' px py hx hy hout, houtside px py hx hy hout]

theorem DrawnRows.getV_of_ne_vf {s t : State} {x0 y0 m : Nat} (h : DrawnRows s t x0 y0 m) {r : Nibble} (hr : r ≠ vf) :
    getV t r = getV s r := by
  obtain ⟨-, -, -, -, hregs⟩ := h
  exact hregs r hr

/-- VF after a draw is 1 exactly where a set bit of the sprite met a lit pixel. -/
theorem DrawnRows.vf_eq_one_iff {s t : State} {x0 y0 m : Nat} (h : DrawnRows s t x0 y0 m) :
    getV t vf = 0x01#8 ↔
      ∃ r c, r < m ∧ c < 8 ∧ spriteBit s r c ∧ pixel s (x0 + c) (y0 + r) = true := by
  obtain ⟨-, -, hhit, hmiss, -⟩ := h
  refine ⟨fun hone => ?_, hhit⟩
  by_contra hnone
  rw [hmiss hnone] at hone
  exact absurd hone (by decide)

/-- A set bit of the sprite stands on a lit pixel after a draw exactly where it stood on a dark one before. -/
theorem DrawnRows.lit_iff_was_dark {s t : State} {x0 y0 m r c : Nat} (h : DrawnRows s t x0 y0 m) (hr : r < m)
    (hc : c < 8) (hbit : spriteBit s r c) : pixel t (x0 + c) (y0 + r) = true ↔ pixel s (x0 + c) (y0 + r) = false := by
  obtain ⟨hplace, -⟩ := h
  obtain ⟨htoggled, -⟩ := hplace r c hr hc
  rw [htoggled hbit, Bool.not_eq_true']

/-- Settles O31: the second draw has the coordinates and the sprite of the first. -/
theorem drawingTwiceRestoresTheDisplay : Obligations.DrawingTwiceRestoresTheDisplay := by
  intro x y n s t u hx hy hfit hst htu
  obtain ⟨hframe, hdrawn⟩ := drawnRows_of_exec_drw hfit hst
  have hmem : t.mem = s.mem ∧ t.index = s.index := by rw [hframe]; exact ⟨rfl, rfl⟩
  have hbits (r c : Nat) : spriteBit t r c ↔ spriteBit s r c := spriteBit_congr hmem r c
  obtain ⟨-, hdrawn'⟩ := drawnRows_of_exec_drw (by rwa [hmem.2]) htu
  rw [hdrawn.getV_of_ne_vf hx, hdrawn.getV_of_ne_vf hy] at hdrawn'
  refine ⟨hdrawn.fb_twice hdrawn' hbits, hdrawn'.vf_eq_one_iff.trans (exists₂_congr fun r c => ?_)⟩
  refine and_congr_right fun hr => and_congr_right fun hc => ?_
  rw [hbits r c]
  exact and_congr_right fun hbit => hdrawn.lit_iff_was_dark hr hc hbit

end Sys2Proof.Machine
end

section
/-! SUPPORT. Proofs of the statements about the keypad and the timers: the key skips, the wait for a key, and the moves
between VX and a timer. -/

namespace Sys2Proof.Machine

/-! ### Key skips -/

theorem skipIf_not (s : State) (c : Bool) :
    skipIf s (!c) = { s with pc := if c = true then s.pc else s.pc + 2#16 } := by
  cases c <;> rfl

/-- R101. -/
theorem exec_skp_of_key {s : State} {x k : Nibble} (h : keyOperand s x = some k) :
    exec (.skp x) s = .next (skipIf s (keyDown s k)) := by
  rw [exec, execSkp, h]

/-- R102. -/
theorem exec_sknp_of_key {s : State} {x k : Nibble} (h : keyOperand s x = some k) :
    exec (.sknp x) s = .next (skipIf s (!keyDown s k)) := by
  rw [exec, execSknp, h]

/-- R101: the fault comes before any skip. -/
theorem exec_skp_of_no_key {s : State} {x : Nibble} (h : keyOperand s x = none) :
    exec (.skp x) s = .next (raiseFault s .badKeyIndex) := by
  rw [exec, execSkp, h]

theorem exec_sknp_of_no_key {s : State} {x : Nibble} (h : keyOperand s x = none) :
    exec (.sknp x) s = .next (raiseFault s .badKeyIndex) := by
  rw [exec, execSknp, h]

/-- Settles O32: VX below 16 names a key, and each skip is on that key; VX from 16 on names none. -/
theorem keySkips : Obligations.KeySkips := by
  refine fun x s => ⟨decodeWord_encode (.skp x), decodeWord_encode (.sknp x), fun k hk => ?_, fun hge => ?_⟩
  · have hkey : keyOperand s x = some (BitVec.ofNat 4 k.val) := keyOperand_of_lt s x k hk
    rw [exec_skp_of_key hkey, exec_sknp_of_key hkey, keyDown_fin, skipIf_eq, skipIf_not]
    exact ⟨rfl, rfl⟩
  · have hnone : keyOperand s x = none := keyOperand_of_ge s x hge
    exact ⟨exec_skp_of_no_key hnone, exec_sknp_of_no_key hnone⟩

/-! ### The wait for a key -/

/-- R103, a key pressed. -/
theorem exec_ldVxK_of_firstKey {s : State} {k : Nibble} (x : Nibble) (h : firstKey s = some k) :
    exec (.ldVxK x) s = .next (setV s x (BitVec.ofNat 8 k.toNat)) := by
  rw [exec, execLdVxK, h]

/-- R103, no key pressed. -/
theorem exec_ldVxK_of_no_key {s : State} (x : Nibble) (h : firstKey s = none) :
    exec (.ldVxK x) s = .next (rewindPc s) := by
  rw [exec, execLdVxK, h]

/-- Settles O33, by what `FirstKey` answers in each case. -/
theorem waitForKeyLatchesTheLowestKey : Obligations.WaitForKeyLatchesTheLowestKey := by
  refine fun x s => ⟨decodeWord_encode (.ldVxK x), fun k hk hlow => ?_, fun hnone => ?_⟩
  · rw [exec_ldVxK_of_firstKey x (firstKey_some s k hk hlow), BitVec.toNat_ofNat, Nat.mod_eq_of_lt k.isLt, setV]
  · exact exec_ldVxK_of_no_key x (firstKey_none s hnone)

theorem rewindPc_advancePc (s : State) : rewindPc (advancePc s) = s := by
  rw [rewindPc, advancePc_pc, BitVec.add_sub_cancel]
  rfl

/-- R103, R136: a STEP that waits undoes its own advance of pc. -/
theorem step_waiting_for_key {s : State} {x : Nibble} (hh : s.halted = false)
    (hf : fetch s = some (0xF#4 ++ x ++ 0x0A#8)) (hkeys : ∀ j : Fin 16, s.keys[j] = false) : step s = .next s := by
  rw [step_of_decode_some hh hf (decodeWord_encode (.ldVxK x)),
    exec_ldVxK_of_no_key x (firstKey_none (advancePc s) hkeys), rewindPc_advancePc]

/-- A state that one operation leaves as it is, any number of them does. -/
theorem operateAll_replicate_of_fixed {s : State} {o : Operation} (h : (operate s o).1 = s) (k : Nat) :
    (operateAll s (List.replicate k o)).1 = s := by
  induction k with
  | zero => rfl
  | succ k ih => rw [List.replicate_succ, operateAll_cons, h, ih]

/-- Settles O34: one STEP leaves the state as it is, and so does any number of them. -/
theorem waitingForAKeyChangesNothing : Obligations.WaitingForAKeyChangesNothing := by
  intro s x k hh hf hkeys
  have hfixed : (operate s .step).1 = s := by rw [operate_step_of_next (step_waiting_for_key hh hf hkeys)]
  exact operateAll_replicate_of_fixed hfixed k

/-! ### Timer moves -/

/-- R104. -/
theorem exec_ldVxDt (x : Nibble) (s : State) : exec (.ldVxDt x) s = .next (setV s x s.dt) := rfl

/-- R105. -/
theorem exec_ldDtVx (x : Nibble) (s : State) : exec (.ldDtVx x) s = .next (setDt s (getV s x)) := rfl

/-- R106. -/
theorem exec_ldStVx (x : Nibble) (s : State) : exec (.ldStVx x) s = .next (setSt s (getV s x)) := rfl

/-- Settles O35: each is one write of a register or a timer. -/
theorem timerMoves : Obligations.TimerMoves :=
  fun x s =>
    ⟨decodeWord_encode (.ldVxDt x), exec_ldVxDt x s, decodeWord_encode (.ldDtVx x), exec_ldDtVx x s,
      decodeWord_encode (.ldStVx x), exec_ldStVx x s⟩

end Sys2Proof.Machine
end

section
/-! SUPPORT. Proofs of the statements about faults and the halt: the causes that an instruction may raise, what a halted
core answers, and the timers and the keypad as the host drives them. -/

namespace Sys2Proof.Machine

/-! ### The causes that an instruction may raise -/

/-- R107: the condition under which instruction `i`, executed in `s`, may raise a cause. UnknownOpcode has no instruction. -/
def Instr.MayRaise (i : Instr) (s : State) : FaultCause → Prop
  | .stackOverflow => s.sp = 16 ∧ ∃ nnn, i = .call nnn
  | .stackUnderflow => s.sp = 0 ∧ i = .ret
  | .outOfBounds => ∃ x y n,
      (i = .drw x y n ∧ 0 < n.toNat ∧ 4096 < s.index.toNat + n.toNat) ∨
      (i = .ldB x ∧ 4096 ≤ s.index.toNat + 2) ∨
      ((i = .ldMemVx x ∨ i = .ldVxMem x) ∧ 4096 ≤ s.index.toNat + x.toNat)
  | .unknownOpcode => False
  | .badKeyIndex => ∃ x, (i = .skp x ∨ i = .sknp x) ∧ 16 ≤ (getV s x).toNat

/-- From `s` to `t` the fault status is left alone, or a cause is raised that `i` may raise in `s`. -/
def RaisesOnlyItsFaults (i : Instr) (s t : State) : Prop :=
  (t.halted = s.halted ∧ t.faultCause = s.faultCause) ∨
  ∃ c, Instr.MayRaise i s c ∧ t.halted = true ∧ t.faultCause = c.code

theorem RaisesOnlyItsFaults.kept {i : Instr} {s t u : State} (h : t = u) (hh : u.halted = s.halted)
    (hc : u.faultCause = s.faultCause) : RaisesOnlyItsFaults i s t := by
  subst h
  exact .inl ⟨hh, hc⟩

theorem RaisesOnlyItsFaults.raised {i : Instr} {s t u : State} (h : t = u) {c : FaultCause}
    (hi : Instr.MayRaise i s c) (hh : u.halted = true) (hc : u.faultCause = c.code) : RaisesOnlyItsFaults i s t := by
  subst h
  exact .inr ⟨c, hi, hh, hc⟩

theorem raisesOnlyItsFaults_of_effect {i : Instr} {s t : State} (he : Effect i s t) : RaisesOnlyItsFaults i s t := by
  cases i with
  | ret =>
    obtain ⟨h, -⟩ | ⟨h, hsp⟩ := he
    · exact .kept h rfl rfl
    · exact .raised (c := .stackUnderflow) h ⟨hsp, rfl⟩ rfl rfl
  | call nnn =>
    obtain h | ⟨h, hsp⟩ := he
    · exact .kept h rfl rfl
    · exact .raised (c := .stackOverflow) h ⟨hsp, nnn, rfl⟩ rfl rfl
  | skp x =>
    obtain h | ⟨h, hkey⟩ := he
    · exact .kept h rfl rfl
    · exact .raised (c := .badKeyIndex) h ⟨x, .inl rfl, hkey⟩ rfl rfl
  | sknp x =>
    obtain h | ⟨h, hkey⟩ := he
    · exact .kept h rfl rfl
    · exact .raised (c := .badKeyIndex) h ⟨x, .inr rfl, hkey⟩ rfl rfl
  | drw x y n =>
    obtain ⟨h | ⟨h, hrows⟩, -⟩ := he
    · exact .kept h rfl rfl
    · exact .raised (c := .outOfBounds) h ⟨x, y, n, .inl ⟨rfl, hrows⟩⟩ rfl rfl
  | ldB x =>
    obtain h | ⟨h, haddr⟩ := he
    · exact .kept h rfl rfl
    · exact .raised (c := .outOfBounds) h ⟨x, 0, 0, .inr (.inl ⟨rfl, haddr⟩)⟩ rfl rfl
  | ldMemVx x =>
    obtain h | ⟨h, haddr⟩ := he
    · exact .kept h rfl rfl
    · exact .raised (c := .outOfBounds) h ⟨x, 0, 0, .inr (.inr ⟨.inl rfl, haddr⟩)⟩ rfl rfl
  | ldVxMem x =>
    obtain ⟨h, -⟩ | ⟨h, haddr, -⟩ := he
    · exact .kept h rfl rfl
    · exact .raised (c := .outOfBounds) h ⟨x, 0, 0, .inr (.inr ⟨.inr rfl, haddr⟩)⟩ rfl rfl
  | ldVxK x => obtain ⟨h, -⟩ | h := he <;> exact .kept h rfl rfl
  | ldByte | addByte | ldReg | orReg | andReg | xorReg | addReg | subReg | shr | subn | shl | ldVxDt | rnd =>
    obtain ⟨h, -⟩ := he
    exact .kept h rfl rfl
  | cls | jp | seByte | sneByte | seReg | sneReg | jpV0 | ldI | addI | ldF | ldDtVx | ldStVx =>
    have h : t = _ := he
    exact .kept h rfl rfl

/-- Settles O36, by what `Effect` says of each instruction that can fault; the cases left are R107's five causes. -/
theorem instructionsRaiseOnlyTheirFaults : Obligations.InstructionsRaiseOnlyTheirFaults := by
  intro i s
  obtain ⟨t, ht, he⟩ := exec_effect i s
  refine ⟨t, ht, (raisesOnlyItsFaults_of_effect he).imp_right ?_⟩
  rintro ⟨c, hi, hh, hc⟩
  refine ⟨hh, ?_⟩
  cases c with
  | stackOverflow => exact .inl ⟨hc, hi⟩
  | stackUnderflow => exact .inr (.inl ⟨hc, hi⟩)
  | outOfBounds => exact .inr (.inr (.inl ⟨hc, hi⟩))
  | unknownOpcode => exact hi.elim
  | badKeyIndex => exact .inr (.inr (.inr ⟨hc, hi⟩))

/-! ### The halted core -/

/-- R60, R111. -/
theorem step_of_halted {s : State} (h : s.halted = true) : step s = .fault (.halted s.faultCause) := by
  simp [step, h]

/-- R111: STATUS reports the halt. -/
theorem operate_status_of_halted {s : State} (h : s.halted = true) :
    operate s .status = (s, .status true s.faultCause) := by
  simp [operate, h]

/-- Settles O9, operation by operation. -/
theorem haltedCoreOnlyAnswersUntilReset : Obligations.HaltedCoreOnlyAnswersUntilReset :=
  fun _ h =>
    ⟨step_of_halted h, operate_step_of_halted h, operate_tickTimers_of_halted h,
      fun k p => ⟨_, operate_keyEvent_of_halted h k p⟩, fun a bs => ⟨_, operate_load_of_halted h a bs⟩,
      rfl, operate_status_of_halted h, rfl, rfl⟩

/-- Settles O60, by induction on the operations: the first leaves the state as it is, so the rest start from it too. -/
theorem onlyResetLeavesTheHalt : Obligations.OnlyResetLeavesTheHalt := by
  intro ops s h hreset
  induction ops with
  | nil => rfl
  | cons o os ih =>
    rw [List.mem_cons, not_or] at hreset
    obtain ⟨hne, hos⟩ := hreset
    rw [operateAll_cons, operate_state_of_halted h (Ne.symm hne)]
    exact ih hos

/-! ### KEY_EVENT -/

/-- Settles O51: a key that exists, a key that does not, and a halted core. -/
theorem keyEventSetsOneKey : Obligations.KeyEventSetsOneKey := by
  refine fun s k p => ⟨fun j hh hk => ?_, fun hh hk => operate_keyEvent_of_ge hh hk p,
    fun hh => ⟨_, operate_keyEvent_of_halted hh k p⟩⟩
  have hlt : k.toNat < nKeys := hk ▸ j.isLt
  simp only [operate_keyEvent_of_lt hh hlt, hk]

/-! ### TICK_TIMERS -/

theorem toNat_countdown (b : Byte) : (countdown b).toNat = b.toNat - 1 := by
  have hb := b.isLt
  rw [countdown, BitVec.toNat_ofNat]
  omega

/-- R118, the countdown on bytes. -/
theorem countdown_eq (b : Byte) : countdown b = if b = 0#8 then 0#8 else b - 1#8 := by
  split
  case isTrue h => rw [h]; rfl
  case isFalse h =>
    apply BitVec.eq_of_toNat_eq
    rw [toNat_countdown]
    bv_omega

/-- Settles O49, by what TICK_TIMERS does in a running and in a halted core. -/
theorem tickTimersCountsDown : Obligations.TickTimersCountsDown := by
  refine fun s => ⟨fun hh => ?_, operate_tickTimers_of_halted⟩
  rw [operate_tickTimers_of_running hh, countdown_eq, countdown_eq]
  rfl

/-- `k` more countdowns after one are `k + 1`. -/
theorem countdown_sub (b : Byte) (k : Nat) : (countdown b).toNat - k = b.toNat - (k + 1) := by
  rw [toNat_countdown, Nat.sub_sub, Nat.add_comm]

/-- R119: the first tick beeps if it finds ST = 1. -/
theorem beep_first (b : Byte) : (b == 0x01#8) = decide (b.toNat = 0 + 1) :=
  decide_eq_decide.mpr BitVec.toNat_inj.symm

/-- R119: what tick `j` finds after one countdown is what tick `j + 1` finds before it. -/
theorem beep_countdown (b : Byte) (j : Nat) :
    decide ((countdown b).toNat = j + 1) = decide (b.toNat = j + 1 + 1) := by
  rw [toNat_countdown, decide_eq_decide]
  omega

/-- R119: the beeps of `k + 1` ticks are that of the first, then those of `k` ticks from what it leaves in ST. -/
theorem beeps_succ (b : Byte) (k : Nat) :
    (List.range (k + 1)).map (fun j => Response.play (decide (b.toNat = j + 1))) =
      .play (b == 0x01#8) :: (List.range k).map (fun j => .play (decide ((countdown b).toNat = j + 1))) := by
  simp only [List.range_succ_eq_map, List.map_cons, List.map_map, beep_first, beep_countdown]
  rfl

/-- Settles O50, by induction on the number of ticks: the first tick, and the others from the state it leaves. -/
theorem oneBeepPerCrossing : Obligations.OneBeepPerCrossing := by
  intro s k hh
  induction k generalizing s with
  | zero => simp [operateAll_nil]
  | succ k ih =>
    have hrest := ih { s with dt := countdown s.dt, st := countdown s.st } hh
    rw [List.replicate_succ, operateAll_cons, operate_tickTimers_of_running hh, hrest, beeps_succ]
    simp only [countdown_sub]

end Sys2Proof.Machine
end

section
/-! SUPPORT. Proofs of the statements about RESET, the boot of a new core, and the parked core. -/

namespace Sys2Proof.Machine

/-! ### The parked core -/

/-- R68: a jump to the address it stands at undoes the advance of pc. -/
theorem setPc_advancePc_self {s : State} {nnn : Addr12} (hpc : nnn.toNat = s.pc.toNat) :
    setPc (advancePc s) (zextAddr nnn) = s := by
  have htarget : zextAddr nnn = s.pc := by rw [zextAddr, hpc, BitVec.ofNat_toNat, BitVec.setWidth_eq]
  rw [htarget]
  rfl

/-- Settles O48: the word decodes to JP, whose target is the address it was fetched from. -/
theorem parkedCoreStaysParked : Obligations.ParkedCoreStaysParked := by
  rintro s ⟨hh, nnn, hf, hpc⟩
  rw [step_of_decode_some hh hf (decodeWord_encode (.jp nnn)), exec_jp, setPc_advancePc_self hpc]

/-! ### RESET -/

/-- Settles O53: R36's table, which RESET gives but for the configuration and the random source. -/
theorem resetGivesTheResetTable : Obligations.ResetGivesTheResetTable := by
  obtain ⟨hv, hpc, hindex, hsp, hstack, hdt, hst, hmem, hfb, hkeys, hhalted, hcause⟩ := stateAfterResetIsTheTable
  intro s
  exact ⟨resetCore s, rfl, hv, hpc, hindex, hsp, hstack, hdt, hst, hmem, hfb, hkeys, hhalted, hcause, rfl, rfl⟩

/-! ### Two LOADs -/

/-- Bytes stored in two ranges that do not meet may be stored in either order. -/
theorem Memory.setMany_comm {m : Memory} {a b : Nat} {bs cs : List Byte} (hw : Memory.wf m = true)
    (hmeet : a + bs.length ≤ b) (hb : b + cs.length ≤ memSize) :
    Memory.setMany (Memory.setMany m b cs) a bs = Memory.setMany (Memory.setMany m a bs) b cs := by
  have ha : a + bs.length ≤ memSize := by omega
  have hwa := Memory.wf_setMany ha hw
  have hwb := Memory.wf_setMany hb hw
  refine Memory.ext_of_get (Memory.wf_setMany ha hwb) (Memory.wf_setMany hb hwa) fun c => ?_
  rw [Memory.get_setMany c ha hwb, Memory.get_setMany c hb hwa, Memory.get_setMany c ha hw,
    Memory.get_setMany c hb hw]
  rcases Nat.lt_or_ge c b with hc | hc
  · simp only [Nat.not_le.mpr hc, false_and, dite_false]
  · simp only [Nat.not_lt.mpr (hmeet.trans hc), and_false, dite_false]

theorem operateAll_pair {s t u : State} {o p : Operation} {r q : Response} (ho : operate s o = (t, r))
    (hp : operate t p = (u, q)) : operateAll s [o, p] = (u, [r, q]) := by
  rw [operateAll_cons, ho, operateAll_cons, hp, operateAll_nil]

/-! ### Boot -/

/-- D13: FONT_BASE as an address. -/
theorem toNat_fontAddr (c : Config) : (BitVec.ofNat 16 c.fontBase.val).toNat = c.fontBase.val := by
  have hbase := c.fontBase.isLt
  rw [BitVec.toNat_ofNat]
  omega

/-- D13: the font ends at or below LOAD_ADDR. -/
theorem fontBase_add_length_le (c : Config) {font : List Byte} (hfont : font.length = 80) :
    c.fontBase.val + font.length ≤ loadAddr.toNat := by
  have hbase := c.fontBase.isLt
  have hload : loadAddr.toNat = 512 := rfl
  omega

/-- R45: the ROMs that fit above LOAD_ADDR. -/
theorem loadAddr_add_length_le_iff (rom : List Byte) : loadAddr.toNat + rom.length ≤ memSize ↔ rom.length ≤ 3584 := by
  have hload : loadAddr.toNat = 512 := rfl
  simp only [hload, memSize]
  omega

theorem wf_construct (c : Config) : Memory.wf (construct c).mem = true := Memory.wf_reset

/-- R36, R128: every byte of a new core is 0x00. -/
theorem memRead_construct (c : Config) {a : Nat} (ha : a < 4096) : memRead (construct c) a = some 0x00#8 :=
  memRead_of_lt (construct c) ha

/-- R130: a new core with the font stored at FONT_BASE. -/
def fontLoaded (c : Config) (font : List Byte) : State :=
  { construct c with mem := Memory.setMany (construct c).mem c.fontBase.val font }

/-- R130: a new core with the font stored at FONT_BASE, then the ROM at LOAD_ADDR. -/
def booted (c : Config) (font rom : List Byte) : State :=
  { fontLoaded c font with mem := Memory.setMany (fontLoaded c font).mem loadAddr.toNat rom }

section
variable (c : Config) {font rom : List Byte} (hfont : font.length = 80)
include hfont

theorem fontBase_add_length_le_memSize : c.fontBase.val + font.length ≤ memSize :=
  (fontBase_add_length_le c hfont).trans (by decide)

theorem fontLoaded_storedAt : StoredAt (construct c) (fontLoaded c font) c.fontBase.val font :=
  storedAt_setMany _ _ _ (wf_construct c) (fontBase_add_length_le_memSize c hfont)

theorem booted_storedAt (hrom : rom.length ≤ 3584) :
    StoredAt (fontLoaded c font) (booted c font rom) loadAddr.toNat rom :=
  storedAt_setMany _ _ _ (Memory.wf_setMany (fontBase_add_length_le_memSize c hfont) (wf_construct c))
    ((loadAddr_add_length_le_iff rom).mpr hrom)

theorem memRead_fontLoaded_font {k : Nat} (hk : k < 80) :
    memRead (fontLoaded c font) (c.fontBase.val + k) = font[k]? := by
  obtain ⟨hin, -⟩ := fontLoaded_storedAt c hfont
  exact hin k (hfont.symm ▸ hk)

theorem memRead_fontLoaded_outside {a : Nat} (ha : a < 4096)
    (hout : a < c.fontBase.val ∨ c.fontBase.val + 80 ≤ a) : memRead (fontLoaded c font) a = some 0x00#8 := by
  obtain ⟨-, hrest⟩ := fontLoaded_storedAt c hfont
  rw [hrest a (hfont.symm ▸ hout), memRead_construct c ha]

theorem operate_load_font : operate (construct c) (.load (BitVec.ofNat 16 c.fontBase.val) font) =
    (fontLoaded c font, .outcome .ok) := by
  have hfit := fontBase_add_length_le_memSize c hfont
  rw [← toNat_fontAddr c] at hfit
  rw [operate_load_of_le rfl hfit, toNat_fontAddr]
  rfl

theorem operateAll_bootOps_of_le (hrom : rom.length ≤ 3584) :
    operateAll (construct c) (bootOps c font rom) = (booted c font rom, [.outcome .ok, .outcome .ok]) :=
  operateAll_pair (operate_load_font c hfont) (operate_load_of_le rfl ((loadAddr_add_length_le_iff rom).mpr hrom))

/-- The font's range ends below the ROM's, so the order of the two LOADs does not matter. -/
theorem operateAll_bootOps_reverse_of_le (hrom : rom.length ≤ 3584) :
    operateAll (construct c) (bootOps c font rom).reverse = (booted c font rom, [.outcome .ok, .outcome .ok]) := by
  have hfit := fontBase_add_length_le_memSize c hfont
  have hromfit := (loadAddr_add_length_le_iff rom).mpr hrom
  rw [← toNat_fontAddr c] at hfit
  refine (operateAll_pair (operate_load_of_le rfl hromfit) (operate_load_of_le rfl hfit)).trans ?_
  rw [toNat_fontAddr, Memory.setMany_comm (wf_construct c) (fontBase_add_length_le c hfont) hromfit]
  rfl

/-- R131: the ROM that does not fit is refused after the font has been stored. -/
theorem operateAll_bootOps_of_gt (hrom : 3584 < rom.length) :
    operateAll (construct c) (bootOps c font rom) =
      (raiseFault (fontLoaded c font) .outOfBounds, [.outcome .ok, .outcome (.fault 3#3)]) := by
  have hover := Nat.lt_of_not_le (mt (loadAddr_add_length_le_iff rom).mp (Nat.not_le.mpr hrom))
  exact operateAll_pair (operate_load_font c hfont) (operate_load_of_gt rfl hover)

end

/-- Settles O55: the two LOADs in either order give `booted`, whose bytes come from the ROM, and outside it from the font or
the new core; a ROM too large leaves the core as the font's LOAD left it, but for the fault. -/
theorem bootPlacesFontAndRom : Obligations.BootPlacesFontAndRom := by
  intro c font rom hfont
  constructor
  · intro hrom
    obtain ⟨hin, hrest⟩ := booted_storedAt c hfont hrom
    have hbelow := fontBase_add_length_le c hfont
    refine ⟨booted c font rom, operateAll_bootOps_of_le c hfont hrom, operateAll_bootOps_reverse_of_le c hfont hrom,
      rfl, fun k hk => ?_, hin, fun a ha hfontOut hromOut => ?_⟩
    · rw [hrest _ (.inl (by omega)), memRead_fontLoaded_font c hfont hk]
    · rw [hrest a hromOut, memRead_fontLoaded_outside c hfont ha hfontOut]
  · intro hrom
    exact ⟨_, operateAll_bootOps_of_gt c hfont hrom, rfl, fun k hk => memRead_fontLoaded_font c hfont hk,
      fun a ha hout => memRead_fontLoaded_outside c hfont ha hout⟩

end Sys2Proof.Machine
end
